-- ==== Sys2Proof/Word.lean ====
section
/-! DEFINITION. The two widths the spec deals in: the byte (00_scope.md R11) and the 16-bit number of a packet operand or result (30_encoding.md R53 (g)). -/

namespace Sys2Proof

/-- A byte is 8 bits, numbered 7 down to 0 (00_scope.md R11). -/
abbrev Byte := BitVec 8

/-- A 16-bit operand or result: a year or a 16-bit value (30_encoding.md R53 (g)). -/
abbrev Half := BitVec 16

end Sys2Proof
end

