-- ==== Sys2Proof/Config.lean ====
section
/-! DEFINITION. The implementation parameters of 00_scope.md section 3: MAXLEN (R6), OPC (R7) and DEVT (R8), and what an unlisted byte of the frame buffer reads as (10_state.md R27). The model leaves no value free: the spec fixes every result. -/

namespace Sys2Proof

/-- MAXLEN of the reference configuration, 10 bytes (00_scope.md R6). `State.cfgMaxLen` carries the parameter, so that statements over all states are over every MAXLEN. -/
def Config.referenceMaxLen : Byte := 0x0A#8

/-- The legal configurations: 1 <= MAXLEN <= 255 (00_scope.md R6); the upper bound is the width of a byte. -/
abbrev Config.legalMaxLen (m : Byte) : Prop := 1 ≤ m.toNat

/-- What a byte of the frame buffer that no cell lists holds: 0x00, the reset contents (10_state.md R27). -/
def Config.blankByte : Byte := 0x00#8

/-- The 18 names of the operation-code vocabulary (42_command.md R73); "first" and "second" alarm are the spec's labels. -/
inductive OperationName where
  | switchOn | switchOff | switchToggle | switchStatus
  | temperature | humidity
  | motionStatus | motionStarted | motionEnded
  | getTime | setTime
  | firstAlarmGet | firstAlarmSet | secondAlarmGet | secondAlarmSet
  | waterLevel | acknowledge | commandFailed
  deriving DecidableEq, Repr

/-- The 11 device-type classes (41_address.md R68). -/
inductive DeviceClass where
  | genericSensor | temperatureSensor | humiditySensor | motionSensor | waterLevelSensor | lightSensor
  | genericSwitch | timedSwitch | triggeredSwitch | rfSwitch
  | hub
  deriving DecidableEq, Repr

/-- The parameter OPC (00_scope.md R7): a map from the vocabulary to 6-bit values, assumed injective. The spec gives no value; no operation of the block reads it. -/
structure Config.OpcMap where
  code : OperationName → BitVec 6
  injective : Function.Injective code

/-- The parameter DEVT (00_scope.md R8): a map from the classes to 4-bit values, assumed injective, the hub's value 15. No operation of the block reads it. -/
structure Config.DevtMap where
  value : DeviceClass → BitVec 4
  injective : Function.Injective value
  hubValue : value .hub = 15#4

/-- The hub's address: class `1111`, instance id 0 (41_address.md R69, 90_conflicts.md C6). -/
def Config.hubAddress : Byte := 0xF0#8

end Sys2Proof
end

