-- ==== Sys2Proof/Syntax.lean ====
section
/-! DEFINITION. The operations of the codec block as syntax: the 20 mnemonics of spec/opcode_table.json, and one constructor of `Instr` per row with its operands (30_encoding.md R53, R54). -/

namespace Sys2Proof

/-- The direction operand and bit 6 of a command byte (30_encoding.md R46, R53 (c)): 0 = NodeToHub, 1 = HubToNode. -/
inductive Direction where
  | nodeToHub
  | hubToNode
  deriving DecidableEq, Repr

/-- A timestamp as numbers (44_typed_fields.md R86), in the widths its packet operands and results have (30_encoding.md R53). There is no seconds field. -/
structure Timestamp where
  year : Half
  month : Byte
  day : Byte
  hour : Byte
  minute : Byte
  deriving DecidableEq, Repr

/-- A timestamp payload: six BCD bytes in the order of 30_encoding.md R48. -/
structure TsPayload where
  yearHigh : Byte
  yearLow : Byte
  month : Byte
  day : Byte
  hour : Byte
  minute : Byte
  deriving DecidableEq, Repr

/-- A 16-bit value payload: two BCD bytes, high part first (30_encoding.md R49). -/
structure ValuePayload where
  high : Byte
  low : Byte
  deriving DecidableEq, Repr

/-- The 20 mnemonics of the OPSEL map (30_encoding.md R54). -/
inductive Mnemonic where
  | bcddec | bcdenc
  | adrenc | adrdec
  | cmdenc | cmddec
  | fbuild | fload | fparse | fread | fclr
  | tsenc | tsdec | v16enc | v16dec | tsput | tsget | v16put | v16get
  | status
  deriving DecidableEq, Repr

/-- The eight request formats (30_encoding.md R52). -/
inductive Format where
  | z | b1 | b2 | b3 | b6 | b7 | v | cv
  deriving DecidableEq, Repr

/-- An operation with its operands, one constructor per row of the OPSEL map (30_encoding.md R54).
An operand whose out-of-range values have an error of their own (R53 (d) to (h)) keeps its whole byte or 16 bits; the Boolean and direction operands of CMDENC, whose other values are reserved encodings (R58), are typed. A length operand (n of FBUILD, L of FLOAD) is the length of the list. -/
inductive Instr where
  /-- BCDDEC b (R65) -/
  | bcddec (b : Byte)
  /-- BCDENC v (R66) -/
  | bcdenc (v : Byte)
  /-- ADRENC t, i (R70) -/
  | adrenc (t i : Byte)
  /-- ADRDEC a (R71) -/
  | adrdec (a : Byte)
  /-- CMDENC dp, dir, opc (R75) -/
  | cmdenc (dp : Bool) (dir : Direction) (opc : Byte)
  /-- CMDDEC c (R76) -/
  | cmddec (c : Byte)
  /-- FBUILD c, [p] (R79) -/
  | fbuild (c : Byte) (p : List Byte)
  /-- FLOAD [f] (R80) -/
  | fload (f : List Byte)
  /-- FPARSE (R81) -/
  | fparse
  /-- FREAD (R82) -/
  | fread
  /-- FCLR (R83) -/
  | fclr
  /-- TSENC year, mo, d, h, mi (R89) -/
  | tsenc (t : Timestamp)
  /-- TSDEC [p0..p5] (R90) -/
  | tsdec (p : TsPayload)
  /-- V16ENC v (R91) -/
  | v16enc (v : Half)
  /-- V16DEC [p0, p1] (R92) -/
  | v16dec (p : ValuePayload)
  /-- TSPUT c, year, mo, d, h, mi (R93) -/
  | tsput (c : Byte) (t : Timestamp)
  /-- TSGET (R94) -/
  | tsget
  /-- V16PUT c, v (R95) -/
  | v16put (c : Byte) (v : Half)
  /-- V16GET (R96) -/
  | v16get
  /-- STATUS (R98) -/
  | status
  deriving DecidableEq, Repr

end Sys2Proof
end

