-- ==== Sys2Proof/WellFormed.lean ====
section
/-! DEFINITION. The instructions a request packet can carry: a length operand is one byte (30_encoding.md R53 (h)), so a payload or a frame in a packet has at most 255 bytes. Every other operand is well formed by its type. -/

namespace Sys2Proof

/-- What a packet can carry (30_encoding.md R53 (h)): n of FBUILD and L of FLOAD are 0 to 255. -/
def Instr.wellFormed : Instr → Bool
  | .fbuild _ p => decide (p.length ≤ 255)
  | .fload f => decide (f.length ≤ 255)
  | .bcddec _ | .bcdenc _ | .adrenc _ _ | .adrdec _ | .cmdenc _ _ _ | .cmddec _ => true
  | .fparse | .fread | .fclr => true
  | .tsenc _ | .tsdec _ | .v16enc _ | .v16dec _ => true
  | .tsput _ _ | .tsget | .v16put _ _ | .v16get => true
  | .status => true

end Sys2Proof
end

