-- ==== Sys2Proof/Decode.lean ====
section
/-! DEFINITION. The decoder of request packets (30_encoding.md R50 to R59), total on any bytes and rejecting by name, the encoder written from the same tables, and the host's entry `decodeTableWord`. -/

namespace Sys2Proof

/-! ### Two-byte numbers in packets (20_memory.md R33, notation of 00_scope.md R13) -/

/-- `hi8(v)` is `v >> 8` (00_scope.md R13). -/
def hi8 (v : Half) : Byte := (v >>> 8).setWidth 8

/-- `lo8(v)` is `v & 0xFF` (00_scope.md R13). -/
def lo8 (v : Half) : Byte := (v &&& 0xFF#16).setWidth 8

/-- `u16(h, l)` is `(h << 8) | l` (00_scope.md R13). -/
def u16 (h l : Byte) : Half := (h.setWidth 16 <<< 8) ||| l.setWidth 16

/-! ### The OPSEL map -/

/-- The OPSEL value of each operation (30_encoding.md R54). -/
def Mnemonic.opsel : Mnemonic → Byte
  | .bcddec => 0x00#8
  | .bcdenc => 0x01#8
  | .adrenc => 0x10#8
  | .adrdec => 0x11#8
  | .cmdenc => 0x20#8
  | .cmddec => 0x21#8
  | .fbuild => 0x30#8
  | .fload => 0x31#8
  | .fparse => 0x32#8
  | .fread => 0x33#8
  | .fclr => 0x34#8
  | .tsenc => 0x40#8
  | .tsdec => 0x41#8
  | .v16enc => 0x42#8
  | .v16dec => 0x43#8
  | .tsput => 0x44#8
  | .tsget => 0x45#8
  | .v16put => 0x46#8
  | .v16get => 0x47#8
  | .status => 0xF0#8

/-- The rows of the OPSEL map in its order (30_encoding.md R54). -/
def Mnemonic.all : List Mnemonic :=
  [.bcddec, .bcdenc, .adrenc, .adrdec, .cmdenc, .cmddec, .fbuild, .fload, .fparse, .fread, .fclr,
   .tsenc, .tsdec, .v16enc, .v16dec, .tsput, .tsget, .v16put, .v16get, .status]

/-- The operation an OPSEL byte selects, all 8 bits decoded; `none` for the 236 reserved values (30_encoding.md R54, R56). -/
def mnemonicOf (opsel : Byte) : Option Mnemonic :=
  Mnemonic.all.find? fun m => m.opsel == opsel

/-- The request format of each operation (30_encoding.md R52, R54). -/
def Mnemonic.format : Mnemonic → Format
  | .bcddec | .bcdenc | .adrdec | .cmddec => .b1
  | .adrenc | .v16enc | .v16dec => .b2
  | .cmdenc | .v16put => .b3
  | .tsenc | .tsdec => .b6
  | .tsput => .b7
  | .fload => .v
  | .fbuild => .cv
  | .fparse | .fread | .fclr | .tsget | .v16get | .status => .z

/-- The length a request should have, from its format and the bytes after OPSEL: fixed, or `2 + req[1]`, or `3 + req[2]`; `none` when the length byte itself is missing (30_encoding.md R57). -/
def Format.requestLength : Format → List Byte → Option Nat
  | .z, _ => some 1
  | .b1, _ => some 2
  | .b2, _ => some 3
  | .b3, _ => some 4
  | .b6, _ => some 7
  | .b7, _ => some 8
  | .v, l :: _ => some (2 + l.toNat)
  | .v, [] => none
  | .cv, _ :: n :: _ => some (3 + n.toNat)
  | .cv, [_] => none
  | .cv, [] => none

/-- The length a packet asks for by its own bytes; `none` when it has no OPSEL, a reserved one, or lacks its length byte. -/
def requestLength : List Byte → Option Nat
  | [] => none
  | op :: args => (mnemonicOf op).bind fun m => m.format.requestLength args

/-! ### Operand encodings (30_encoding.md R53) -/

/-- A Boolean operand: 0 = false, 1 = true, 2 to 255 reserved (R53 (b), R58). -/
def boolOfByte (b : Byte) : Option Bool :=
  if b = 0x00#8 then some false else if b = 0x01#8 then some true else none

/-- The byte of a Boolean operand or result (R53 (b)). -/
def byteOfBool : Bool → Byte
  | false => 0x00#8
  | true => 0x01#8

/-- A direction operand: 0 = NodeToHub, 1 = HubToNode, 2 to 255 reserved (R53 (c), R58). -/
def directionOfByte (b : Byte) : Option Direction :=
  if b = 0x00#8 then some .nodeToHub else if b = 0x01#8 then some .hubToNode else none

/-- The byte of a direction operand or result (R53 (c)). -/
def byteOfDirection : Direction → Byte
  | .nodeToHub => 0x00#8
  | .hubToNode => 0x01#8

/-! ### The decoder -/

/-- Why a packet carries no instruction, in the order the block looks (30_encoding.md R59). -/
inductive DecodeError where
  /-- a packet of no bytes, which is not a request (R50) -/
  | emptyPacket
  /-- a reserved OPSEL (R56): IllegalRequest -/
  | reservedOpsel
  /-- a wrong length (R57): IllegalRequest -/
  | wrongLength
  /-- a Boolean or direction operand of 2 to 255 (R58): IllegalRequest -/
  | reservedOperand
  deriving DecidableEq, Repr

/-- No operand bytes (format Z). -/
def operands0 (i : Instr) : List Byte → Except DecodeError Instr
  | [] => .ok i
  | _ => .error .wrongLength

/-- One operand byte (format B1). -/
def operands1 (f : Byte → Instr) : List Byte → Except DecodeError Instr
  | [x] => .ok (f x)
  | _ => .error .wrongLength

/-- Two operand bytes (format B2). -/
def operands2 (f : Byte → Byte → Instr) : List Byte → Except DecodeError Instr
  | [x, y] => .ok (f x y)
  | _ => .error .wrongLength

/-- Three operand bytes (format B3), of which some values may be reserved. -/
def operands3 (f : Byte → Byte → Byte → Except DecodeError Instr) : List Byte → Except DecodeError Instr
  | [x, y, z] => f x y z
  | _ => .error .wrongLength

/-- Six operand bytes (format B6). -/
def operands6 (f : Byte → Byte → Byte → Byte → Byte → Byte → Instr) : List Byte → Except DecodeError Instr
  | [x0, x1, x2, x3, x4, x5] => .ok (f x0 x1 x2 x3 x4 x5)
  | _ => .error .wrongLength

/-- Seven operand bytes (format B7). -/
def operands7 (f : Byte → Byte → Byte → Byte → Byte → Byte → Byte → Instr) : List Byte → Except DecodeError Instr
  | [c, x0, x1, x2, x3, x4, x5] => .ok (f c x0 x1 x2 x3 x4 x5)
  | _ => .error .wrongLength

/-- A length byte and a byte sequence (format V). -/
def operandsV (f : List Byte → Instr) : List Byte → Except DecodeError Instr
  | _ :: xs => .ok (f xs)
  | [] => .error .wrongLength

/-- A byte, a length byte and a byte sequence (format CV). -/
def operandsCV (f : Byte → List Byte → Instr) : List Byte → Except DecodeError Instr
  | c :: _ :: xs => .ok (f c xs)
  | _ => .error .wrongLength

/-- CMDENC, whose Boolean and direction operands have reserved values (30_encoding.md R58). -/
def cmdencOperands (dp dir opc : Byte) : Except DecodeError Instr :=
  match boolOfByte dp, directionOfByte dir with
  | some dp, some dir => .ok (.cmdenc dp dir opc)
  | _, _ => .error .reservedOperand

/-- The operands of an operation from the bytes after OPSEL, whose number has been checked (30_encoding.md R54, R59 (4)). -/
def decodeOperands : Mnemonic → List Byte → Except DecodeError Instr
  | .bcddec => operands1 .bcddec
  | .bcdenc => operands1 .bcdenc
  | .adrenc => operands2 .adrenc
  | .adrdec => operands1 .adrdec
  | .cmdenc => operands3 cmdencOperands
  | .cmddec => operands1 .cmddec
  | .fbuild => operandsCV .fbuild
  | .fload => operandsV .fload
  | .fparse => operands0 .fparse
  | .fread => operands0 .fread
  | .fclr => operands0 .fclr
  | .tsenc => operands6 fun yH yL mo d h mi => .tsenc ⟨u16 yH yL, mo, d, h, mi⟩
  | .tsdec => operands6 fun p0 p1 p2 p3 p4 p5 => .tsdec ⟨p0, p1, p2, p3, p4, p5⟩
  | .v16enc => operands2 fun vH vL => .v16enc (u16 vH vL)
  | .v16dec => operands2 fun p0 p1 => .v16dec ⟨p0, p1⟩
  | .tsput => operands7 fun c yH yL mo d h mi => .tsput c ⟨u16 yH yL, mo, d, h, mi⟩
  | .tsget => operands0 .tsget
  | .v16put => operands3 fun c vH vL => .ok (.v16put c (u16 vH vL))
  | .v16get => operands0 .v16get
  | .status => operands0 .status

/-- Decoding of a request: reserved OPSEL, then wrong length, then reserved operand (30_encoding.md R59 (2) to (4)). -/
def decode : List Byte → Except DecodeError Instr
  | [] => .error .emptyPacket
  | op :: args =>
    match mnemonicOf op with
    | none => .error .reservedOpsel
    | some m =>
      if m.format.requestLength args = some (args.length + 1) then decodeOperands m args
      else .error .wrongLength

/-! ### The encoder -/

/-- The row of the OPSEL map an instruction belongs to (30_encoding.md R54). -/
def Instr.mnemonic : Instr → Mnemonic
  | .bcddec _ => .bcddec
  | .bcdenc _ => .bcdenc
  | .adrenc _ _ => .adrenc
  | .adrdec _ => .adrdec
  | .cmdenc _ _ _ => .cmdenc
  | .cmddec _ => .cmddec
  | .fbuild _ _ => .fbuild
  | .fload _ => .fload
  | .fparse => .fparse
  | .fread => .fread
  | .fclr => .fclr
  | .tsenc _ => .tsenc
  | .tsdec _ => .tsdec
  | .v16enc _ => .v16enc
  | .v16dec _ => .v16dec
  | .tsput _ _ => .tsput
  | .tsget => .tsget
  | .v16put _ _ => .v16put
  | .v16get => .v16get
  | .status => .status

/-- A timestamp as it travels in a packet: the year high byte first, then the four bytes (30_encoding.md R54, R55). -/
def Timestamp.bytes (t : Timestamp) : List Byte :=
  [hi8 t.year, lo8 t.year, t.month, t.day, t.hour, t.minute]

/-- The six bytes of a timestamp payload in wire order (30_encoding.md R48). -/
def TsPayload.bytes (p : TsPayload) : List Byte :=
  [p.yearHigh, p.yearLow, p.month, p.day, p.hour, p.minute]

/-- The two bytes of a 16-bit value payload in wire order (30_encoding.md R49). -/
def ValuePayload.bytes (p : ValuePayload) : List Byte := [p.high, p.low]

/-- The bytes after OPSEL, in the operand column's order (30_encoding.md R54). -/
def Instr.operandBytes : Instr → List Byte
  | .bcddec b => [b]
  | .bcdenc v => [v]
  | .adrenc t i => [t, i]
  | .adrdec a => [a]
  | .cmdenc dp dir opc => [byteOfBool dp, byteOfDirection dir, opc]
  | .cmddec c => [c]
  | .fbuild c p => c :: BitVec.ofNat 8 p.length :: p
  | .fload f => BitVec.ofNat 8 f.length :: f
  | .fparse => []
  | .fread => []
  | .fclr => []
  | .tsenc t => t.bytes
  | .tsdec p => p.bytes
  | .v16enc v => [hi8 v, lo8 v]
  | .v16dec p => p.bytes
  | .tsput c t => c :: t.bytes
  | .tsget => []
  | .v16put c v => [c, hi8 v, lo8 v]
  | .v16get => []
  | .status => []

/-- The request packet of an instruction: OPSEL, then its operands (30_encoding.md R50, R54). -/
def encode (i : Instr) : List Byte := i.mnemonic.opsel :: i.operandBytes

/-! ### The host's words -/

/-- The first k bytes of a word, its least significant byte first. -/
def wordBytes (w : Nat) : Nat → List Byte
  | 0 => []
  | k + 1 => BitVec.ofNat 8 w :: wordBytes (w / 256) k

/-- The request packet a table word stands for: its nbits/8 bytes, and after them as many zero operand bytes as the packet asks for by its own bytes (30_encoding.md R57). -/
def packetOfWord (nbits w : Nat) : List Byte :=
  let w := w % 2 ^ nbits
  wordBytes w (max (nbits / 8) ((requestLength (wordBytes w 3)).getD 0))

/-- The instruction the decoder reads from a table word (packet byte 0 in the word's lowest bits), `none` where it refuses. -/
def decodeTableWord (nbits w : Nat) : Option Instr :=
  (decode (packetOfWord nbits w)).toOption

end Sys2Proof
end

