-- ==== Sys2Proof/Machine/State.lean ====
section
/-! DEFINITION. The state of the codec block as plain data (10_state.md R15 to R23), the host's side of the packet interface, the reasons a step can stop, and the machine right after reset (10_state.md R27, 70_reset_and_hazards.md R124). -/

namespace Sys2Proof.Machine

/-- The contents of a byte space: cells (address, byte) in one canonical form (`Memory.wf` of Machine/Ops.lean); an unlisted address holds `Config.blankByte`. -/
abbrev Memory := List Host.Cell

/-- The eight status codes (60_exceptions.md R100). -/
inductive Status where
  /-- 0, success -/
  | ok
  /-- 1, a constant out of range: fatal (R101) -/
  | configurationError
  /-- 2, the payload exceeds the frame capacity (R102) -/
  | payloadTooLarge
  /-- 3, a BCD byte with a nibble over 9; the results are still delivered (R103) -/
  | malformedBcd
  /-- 4, a frame of a length the operation cannot work with (R104) -/
  | badLength
  /-- 5, a number that does not fit its decimal digits (R105) -/
  | rangeError
  /-- 6, not a well-formed request (R106) -/
  | illegalRequest
  /-- 7, refused because the fatal latch is set (R107) -/
  | halted
  deriving DecidableEq, Repr

/-- What the host can do to the block (70_reset_and_hazards.md R123, R135). -/
inductive HostEvent where
  /-- a request packet, delivered whole (30_encoding.md R50) -/
  | request (packet : List Byte)
  /-- the reset input, between two requests; also a loss of power (60_exceptions.md R122) -/
  | reset
  /-- the reset input while the operation of this request is in progress, which abandons it (70_reset_and_hazards.md R123) -/
  | resetDuring (packet : List Byte)
  deriving DecidableEq, Repr

/-- The state. `frame`, `flen` and `st` are the spec's (10_state.md R15); `cfgMaxLen` is its constant CFG.MAXLEN (R23); `pending` and `responses` are the model's own, the packets that have come and gone (log 1, log 2). -/
structure State where
  /-- F[0..MAXLEN-1] (R16) -/
  frame : Memory
  /-- FLEN, held in 8 bits (R17) -/
  flen : Byte
  /-- ST: bit 7 FATAL, bits 2 to 0 ERR (R20) -/
  st : Byte
  /-- CFG.MAXLEN, a constant of the build (R23, 00_scope.md R6) -/
  cfgMaxLen : Byte
  /-- the host's events not yet consumed, oldest first -/
  pending : List HostEvent
  /-- the responses given, oldest first (30_encoding.md R51) -/
  responses : List (List Byte)
  deriving DecidableEq, Repr

/-- Why the machine stops with a fault. -/
inductive Fault where
  /-- Raised by a buffer access of `count` bytes at `addr` that does not fit 0..MAXLEN-1 (FPARSE, FREAD, TSGET, V16GET when FLEN > MAXLEN). The spec says such an access cannot happen (20_memory.md R35), and it does not in a state that keeps 10_state.md R18. Safe: the model stops where the spec says nothing. -/
  | outsideBuffer (addr count : Nat)
  deriving DecidableEq, Repr

/-- Why the machine refuses. -/
inductive Refusal where
  /-- Raised by an arm of exec whose instruction has no meaning in the model; no arm is such. Safe. -/
  | notModelled (mnemonic : String)
  deriving DecidableEq, Repr

/-- The answer of a step or of a meaning. -/
abbrev Result := Host.Outcome State Fault Refusal

/-- The block after reset (10_state.md R27, 70_reset_and_hazards.md R124), in the reference configuration (00_scope.md R6), with nothing presented and nothing answered (log 1, log 2). -/
def State.reset : State where
  frame := []
  flen := 0x00#8
  st := 0x00#8
  cfgMaxLen := Config.referenceMaxLen
  pending := []
  responses := []

end Sys2Proof.Machine
end

