-- ==== Sys2Proof/Machine/Flags.lean ====
section
/-! DEFINITION. The status register ST, the block's only flag register (10_state.md R20 to R22), and the status codes (60_exceptions.md R100). -/

namespace Sys2Proof.Machine

/-- The number of a status code (60_exceptions.md R100). -/
def Status.code : Status → Byte
  | .ok => 0x00#8
  | .configurationError => 0x01#8
  | .payloadTooLarge => 0x02#8
  | .malformedBcd => 0x03#8
  | .badLength => 0x04#8
  | .rangeError => 0x05#8
  | .illegalRequest => 0x06#8
  | .halted => 0x07#8

/-- ST.FATAL, bit 7 (10_state.md R20, R22). -/
def State.fatal (s : State) : Bool := s.st.getLsbD 7

/-- ST.ERR, bits 2 to 0 (10_state.md R20, R21). -/
def State.err (s : State) : BitVec 3 := s.st.setWidth 3

/-- ST as STATUS reads it: bits 6 to 3 read as 0 (10_state.md R20). -/
def State.readSt (s : State) : Byte := s.st &&& 0x87#8

/-- ST.ERR <- the status code; the other bits of ST keep their values (10_state.md R20, R21). -/
def State.setErr (s : State) (st : Status) : State :=
  { s with st := (s.st &&& 0xF8#8) ||| st.code }

/-- ST.FATAL <- 1 (10_state.md R22). -/
def State.setFatal (s : State) : State :=
  { s with st := s.st ||| 0x80#8 }

end Sys2Proof.Machine
end

