-- ==== Sys2Proof/Machine/Ops.lean ====
section
/-! DEFINITION. The named operations over the frame buffer, the packets and reset: reading and writing bytes (00_scope.md R13, 20_memory.md R29 to R36), responding and raising (00_scope.md R13, 60_exceptions.md R111, R112), the Halted test (60_exceptions.md R107) and reset (70_reset_and_hazards.md R124). -/

namespace Sys2Proof.Machine

/-! ### The byte space -/

/-- The byte at an address. -/
def Memory.read : Memory → Nat → Byte
  | [], _ => Config.blankByte
  | (a, v) :: m, k => if a = k then v else Memory.read m k

/-- Write one byte, keeping the canonical form: a cell equal to what an unlisted address holds is not listed. -/
def Memory.write : Memory → Nat → Byte → Memory
  | [], k, v => if v = Config.blankByte then [] else [(k, v)]
  | (a, w) :: m, k, v =>
    if k < a then (if v = Config.blankByte then (a, w) :: m else (k, v) :: (a, w) :: m)
    else if k = a then (if v = Config.blankByte then m else (k, v) :: m)
    else (a, w) :: Memory.write m k v

/-- The canonical form: addresses strictly rising, no cell equal to what an unlisted address holds. -/
def Memory.wf : Memory → Bool
  | [] => true
  | (a, v) :: m => (m.all fun c => decide (a < c.1)) && decide (v ≠ Config.blankByte) && Memory.wf m

/-- n bytes from an address upward, lowest first. -/
def Memory.readN (m : Memory) (a : Nat) : Nat → List Byte
  | 0 => []
  | n + 1 => m.read a :: m.readN (a + 1) n

/-- Write bytes from an address upward, lowest first. -/
def Memory.writeN (m : Memory) (a : Nat) : List Byte → Memory
  | [] => m
  | v :: vs => (m.write a v).writeN (a + 1) vs

/-! ### The frame buffer (20_memory.md R29 to R36) -/

/-- CFG.MAXLEN as a number (10_state.md R23). -/
def State.maxLen (s : State) : Nat := s.cfgMaxLen.toNat

/-- F[k] (10_state.md R16). -/
def State.readByte (s : State) (k : Nat) : Byte := s.frame.read k

/-- MemRead(addr, n): defined only when addr + n <= MAXLEN (00_scope.md R13). -/
def State.memRead (s : State) (addr n : Nat) : Option (List Byte) :=
  if addr + n ≤ s.maxLen then some (s.frame.readN addr n) else none

/-- MemWrite(addr, n, v): defined only when addr + n <= MAXLEN (00_scope.md R13). -/
def State.memWrite (s : State) (addr : Nat) (vs : List Byte) : Option State :=
  if addr + vs.length ≤ s.maxLen then some { s with frame := s.frame.writeN addr vs } else none

/-- The whole buffer for a frame: its bytes, then 0x00 up to MAXLEN (43_frame.md R78). -/
def padFrame (maxLen : Nat) (f : List Byte) : List Byte :=
  f ++ List.replicate (maxLen - f.length) 0x00#8

/-- Put a frame in the buffer: all MAXLEN bytes of F, and FLEN (43_frame.md R78, R79, R80). -/
def State.storeFrame (s : State) (f : List Byte) : Option State :=
  (s.memWrite 0 (padFrame s.maxLen f)).map fun s => { s with flen := BitVec.ofNat 8 f.length }

/-! ### Responses and errors -/

/-- Give a response packet (30_encoding.md R51). -/
def State.emit (s : State) (packet : List Byte) : State :=
  { s with responses := s.responses ++ [packet] }

/-- `respond(st, r0, r1, ...)`: ST.ERR <- st, and the status byte followed by the results (00_scope.md R13). -/
def State.respond (s : State) (st : Status) (results : List Byte) : Result :=
  .next ((s.setErr st).emit (st.code :: results))

/-- `raise <Status>`, taking an error: nothing is written but ST (ERR <- the code; FATAL <- 1 for ConfigurationError), and the response is the status byte alone (00_scope.md R13, 60_exceptions.md R111, R112). There is no handler and nothing is saved. -/
def State.raise (s : State) (e : Status) : Result :=
  .next (((if e = .configurationError then s.setFatal else s).setErr e).emit [e.code])

/-- The response of a request with OPSEL 0xF0, which writes no state at all (60_exceptions.md R112 (b)). -/
def State.respondOnly (s : State) (st : Status) (results : List Byte) : Result :=
  .next (s.emit (st.code :: results))

/-- The Halted test, made before anything else: while ST.FATAL = 1 the answer is `[0x07]` and nothing is written (60_exceptions.md R107). -/
def State.unlessHalted (s : State) (op : State → Result) : Result :=
  if s.fatal then s.respondOnly .halted [] else op s

/-- Put a frame in the buffer and answer OK; the buffer does not hold an access past its end. -/
def State.replaceFrame (s : State) (f : List Byte) : Result :=
  match s.storeFrame f with
  | some s' => s'.respond .ok []
  | none => .fault (.outsideBuffer 0 f.length)

/-- Read n bytes of the buffer and go on with them. -/
def State.withBytes (s : State) (addr n : Nat) (k : List Byte → Result) : Result :=
  match s.memRead addr n with
  | some bs => k bs
  | none => .fault (.outsideBuffer addr n)

/-- Reset, the only way back from the fatal latch: F, FLEN and ST to their reset values, CFG unchanged (70_reset_and_hazards.md R123, R124; 60_exceptions.md R114, R115). What the host has presented and been answered is the host's (log 1, log 2). -/
def State.applyReset (s : State) : State :=
  { State.reset with cfgMaxLen := s.cfgMaxLen, pending := s.pending, responses := s.responses }

end Sys2Proof.Machine
end

