-- ==== Sys2Proof/Machine/Operands.lean ====
section
/-! DEFINITION. The pure functions of the four components: BCD (40_bcd.md R62 to R64), the address byte (30_encoding.md R45), the command byte (R46), the typed fields (44_typed_fields.md R85 to R87), and the range tests of the operands (30_encoding.md R53). Arithmetic is over the naturals and narrowed at the end; every result fits its field (00_scope.md R12). -/

namespace Sys2Proof.Machine

/-! ### Bit fields (00_scope.md R11) -/

/-- The high nibble, b[7:4]. -/
def highNibble (b : Byte) : Nat := b.toNat / 16

/-- The low nibble, b[3:0]. -/
def lowNibble (b : Byte) : Nat := b.toNat % 16

/-! ### BCD (40_bcd.md) -/

/-- `bcd_dec(b)` is `b - 6*(b >> 4)` (R62): 0 to 165. -/
def bcdDec (b : Byte) : Nat := b.toNat - 6 * (b.toNat >>> 4)

/-- `bcd_ok(b)`: both nibbles at most 9 (R63). -/
def bcdOk (b : Byte) : Bool := decide (highNibble b ≤ 9) && decide (lowNibble b ≤ 9)

/-- `bcd_enc(v)` is `((v div 10) << 4) | (v mod 10)`, defined for v <= 99 (R64). -/
def bcdEnc (v : Nat) : Byte := BitVec.ofNat 8 (((v / 10) <<< 4) ||| (v % 10))

/-- `bcd_dec` as the result byte that carries it. -/
def bcdDecByte (b : Byte) : Byte := BitVec.ofNat 8 (bcdDec b)

/-- OK, or MalformedBcd when a byte that was decoded is malformed (60_exceptions.md R103). -/
def bcdStatus (wellFormed : Bool) : Status := if wellFormed then .ok else .malformedBcd

/-! ### Operand ranges (30_encoding.md R53) -/

/-- A 4-bit number is in range at 0 to 15 (R53 (d)). -/
def nibbleOk (b : Byte) : Bool := decide (b.toNat ≤ 15)

/-- A 6-bit number is in range at 0 to 63 (R53 (e)). -/
def sixBitOk (b : Byte) : Bool := decide (b.toNat ≤ 63)

/-- A decimal byte value is in range at 0 to 99 (R53 (f)). -/
def decimalOk (b : Byte) : Bool := decide (b.toNat ≤ 99)

/-- A 16-bit number to encode is in range at 0 to 9999 (R53 (g)). -/
def decimal16Ok (v : Half) : Bool := decide (v.toNat ≤ 9999)

/-- Every field of a timestamp to encode is in range (44_typed_fields.md R89). -/
def timestampOk (t : Timestamp) : Bool :=
  decimal16Ok t.year && decimalOk t.month && decimalOk t.day && decimalOk t.hour && decimalOk t.minute

/-! ### The address byte (30_encoding.md R45) -/

/-- `(t << 4) | i` (41_address.md R70). -/
def packAddress (t i : Byte) : Byte := (t <<< 4) ||| i

/-- `a[7:4]` (41_address.md R71). -/
def addressClass (a : Byte) : Byte := a >>> 4

/-- `a[3:0]` (41_address.md R71). -/
def addressInstance (a : Byte) : Byte := a &&& 0x0F#8

/-! ### The command byte (30_encoding.md R46) -/

/-- `(dp << 7) | (dir << 6) | opc` (42_command.md R75). -/
def packCommand (dp : Bool) (dir : Direction) (opc : Byte) : Byte :=
  (byteOfBool dp <<< 7) ||| (byteOfDirection dir <<< 6) ||| opc

/-- `c[7]`, dataPresent (42_command.md R76). -/
def commandDataPresent (c : Byte) : Bool := c.getLsbD 7

/-- `c[6]`, direction: 1 = HubToNode, 0 = NodeToHub (42_command.md R76). -/
def commandDirection (c : Byte) : Direction := if c.getLsbD 6 then .hubToNode else .nodeToHub

/-- `c[5:0]`, the operation code (42_command.md R76). -/
def commandCode (c : Byte) : Byte := c &&& 0x3F#8

/-! ### Typed fields (44_typed_fields.md) -/

/-- `comb(h, l) = 100*h + l`, h and l decoded, high part first (R85). -/
def comb (high low : Byte) : Nat := 100 * bcdDec high + bcdDec low

/-- `ts_dec(p)` (R86). -/
def tsDec (p : TsPayload) : Timestamp where
  year := BitVec.ofNat 16 (comb p.yearHigh p.yearLow)
  month := bcdDecByte p.month
  day := bcdDecByte p.day
  hour := bcdDecByte p.hour
  minute := bcdDecByte p.minute

/-- `ts_ok(p)`: all six bytes well formed (R86). -/
def tsOk (p : TsPayload) : Bool := p.bytes.all bcdOk

/-- `ts_enc(year, month, day, hour, minute)`, defined for fields in range (R86). No calendar rule is applied. -/
def tsEnc (t : Timestamp) : TsPayload where
  yearHigh := bcdEnc (t.year.toNat / 100)
  yearLow := bcdEnc (t.year.toNat % 100)
  month := bcdEnc t.month.toNat
  day := bcdEnc t.day.toNat
  hour := bcdEnc t.hour.toNat
  minute := bcdEnc t.minute.toNat

/-- `v16_dec(p)` (R87). -/
def v16Dec (p : ValuePayload) : Half := BitVec.ofNat 16 (comb p.high p.low)

/-- `v16_ok(p)` (R87). -/
def v16Ok (p : ValuePayload) : Bool := bcdOk p.high && bcdOk p.low

/-- `v16_enc(v)`, defined for v <= 9999 (R87). -/
def v16Enc (v : Half) : ValuePayload where
  high := bcdEnc (v.toNat / 100)
  low := bcdEnc (v.toNat % 100)

/-! ### Typed fields in the frame (20_memory.md R31) -/

/-- The timestamp payload in six bytes read from the buffer (44_typed_fields.md R94). -/
def tsPayloadOf (p : List Byte) : TsPayload where
  yearHigh := p.getD 0 Config.blankByte
  yearLow := p.getD 1 Config.blankByte
  month := p.getD 2 Config.blankByte
  day := p.getD 3 Config.blankByte
  hour := p.getD 4 Config.blankByte
  minute := p.getD 5 Config.blankByte

/-- The value payload in two bytes read from the buffer (44_typed_fields.md R96). -/
def valuePayloadOf (p : List Byte) : ValuePayload where
  high := p.getD 0 Config.blankByte
  low := p.getD 1 Config.blankByte

/-- A timestamp stands at addresses 1 to 6, a value at addresses 1 and 2 (20_memory.md R31). -/
def typedFieldAddress : Nat := 1

/-! ### Answers shared by the operations on packets and on the buffer -/

/-- Answer a decoded timestamp, under OK or MalformedBcd (44_typed_fields.md R90, R94). -/
def State.respondTimestamp (s : State) (p : TsPayload) : Result :=
  s.respond (bcdStatus (tsOk p)) (tsDec p).bytes

/-- Answer a decoded value, under OK or MalformedBcd (44_typed_fields.md R92, R96). -/
def State.respondValue (s : State) (p : ValuePayload) : Result :=
  s.respond (bcdStatus (v16Ok p)) [hi8 (v16Dec p), lo8 (v16Dec p)]

end Sys2Proof.Machine
end

