-- ==== Sys2Proof/Machine/Address.lean ====
section
/-! DEFINITION. The address encoder operations ADRENC and ADRDEC (41_address.md R70, R71). -/

namespace Sys2Proof.Machine

/-- ADRENC t, i (R70): an operand over 15 is a ConfigurationError, never masked. -/
def execAdrenc (t i : Byte) (s : State) : Result :=
  s.unlessHalted fun s =>
    if nibbleOk t && nibbleOk i then s.respond .ok [packAddress t i] else s.raise .configurationError

/-- ADRDEC a (R71), total on all 256 bytes. -/
def execAdrdec (a : Byte) (s : State) : Result :=
  s.unlessHalted fun s => s.respond .ok [addressClass a, addressInstance a]

end Sys2Proof.Machine
end

