-- ==== Sys2Proof/Machine/Bcd.lean ====
section
/-! DEFINITION. The BCD codec operations BCDDEC and BCDENC (40_bcd.md R65, R66). -/

namespace Sys2Proof.Machine

/-- BCDDEC b (R65): the value is delivered under both statuses. -/
def execBcddec (b : Byte) (s : State) : Result :=
  s.unlessHalted fun s => s.respond (bcdStatus (bcdOk b)) [bcdDecByte b]

/-- BCDENC v (R66). -/
def execBcdenc (v : Byte) (s : State) : Result :=
  s.unlessHalted fun s =>
    if decimalOk v then s.respond .ok [bcdEnc v.toNat] else s.raise .rangeError

end Sys2Proof.Machine
end

