-- ==== Sys2Proof/Machine/Command.lean ====
section
/-! DEFINITION. The command byte codec operations CMDENC and CMDDEC (42_command.md R75, R76). -/

namespace Sys2Proof.Machine

/-- CMDENC dp, dir, opc (R75). The reserved dp and dir are refused by the decoder (30_encoding.md R58, R59). -/
def execCmdenc (dp : Bool) (dir : Direction) (opc : Byte) (s : State) : Result :=
  s.unlessHalted fun s =>
    if sixBitOk opc then s.respond .ok [packCommand dp dir opc] else s.raise .configurationError

/-- CMDDEC c (R76), total on all 256 bytes. -/
def execCmddec (c : Byte) (s : State) : Result :=
  s.unlessHalted fun s =>
    s.respond .ok [byteOfBool (commandDataPresent c), byteOfDirection (commandDirection c), commandCode c]

end Sys2Proof.Machine
end

