-- ==== Sys2Proof/Machine/Frame.lean ====
section
/-! DEFINITION. The frame operations FBUILD, FLOAD, FPARSE, FREAD and FCLR (43_frame.md R79 to R83). -/

namespace Sys2Proof.Machine

/-- FBUILD c, [p] (R79). `n > MAXLEN - 1` is read over the integers, as `n + 1 > MAXLEN` (log 9). -/
def execFbuild (c : Byte) (p : List Byte) (s : State) : Result :=
  s.unlessHalted fun s =>
    if p.length + 1 > s.maxLen then s.raise .payloadTooLarge else s.replaceFrame (c :: p)

/-- FLOAD [f] (R80). -/
def execFload (f : List Byte) (s : State) : Result :=
  s.unlessHalted fun s =>
    if f.length = 0 ∨ f.length > s.maxLen then s.raise .badLength else s.replaceFrame f

/-- FPARSE (R81): the command byte, the payload's length and the payload. -/
def execFparse (s : State) : Result :=
  s.unlessHalted fun s =>
    if s.flen.toNat = 0 then s.raise .badLength
    else s.withBytes 0 1 fun c => s.withBytes 1 (s.flen.toNat - 1) fun p =>
      s.respond .ok (c ++ BitVec.ofNat 8 (s.flen.toNat - 1) :: p)

/-- FREAD (R82): the frame's length and its bytes. -/
def execFread (s : State) : Result :=
  s.unlessHalted fun s => s.withBytes 0 s.flen.toNat fun f => s.respond .ok (s.flen :: f)

/-- FCLR (R83): the empty buffer; ST.FATAL is not cleared. -/
def execFclr (s : State) : Result :=
  s.unlessHalted fun s => s.replaceFrame []

end Sys2Proof.Machine
end

