-- ==== Sys2Proof/Machine/System.lean ====
section
/-! DEFINITION. The system operation STATUS (45_system.md R98). -/

namespace Sys2Proof.Machine

/-- STATUS (R98): ST and CFG.MAXLEN, never refused with Halted, writing nothing at all. -/
def execStatus (s : State) : Result :=
  s.respondOnly .ok [s.readSt, s.cfgMaxLen]

end Sys2Proof.Machine
end

