-- ==== Sys2Proof/Machine/Typed.lean ====
section
/-! DEFINITION. The typed payload operations (44_typed_fields.md R89 to R96). None of them looks at the command byte (R88). -/

namespace Sys2Proof.Machine

/-- TSENC year, mo, d, h, mi (R89). -/
def execTsenc (t : Timestamp) (s : State) : Result :=
  s.unlessHalted fun s =>
    if timestampOk t then s.respond .ok (tsEnc t).bytes else s.raise .rangeError

/-- TSDEC [p0..p5] (R90). -/
def execTsdec (p : TsPayload) (s : State) : Result :=
  s.unlessHalted fun s => s.respondTimestamp p

/-- V16ENC v (R91). -/
def execV16enc (v : Half) (s : State) : Result :=
  s.unlessHalted fun s =>
    if decimal16Ok v then s.respond .ok (v16Enc v).bytes else s.raise .rangeError

/-- V16DEC [p0, p1] (R92). -/
def execV16dec (p : ValuePayload) (s : State) : Result :=
  s.unlessHalted fun s => s.respondValue p

/-- TSPUT c, year, mo, d, h, mi (R93): the capacity is tested before the ranges. -/
def execTsput (c : Byte) (t : Timestamp) (s : State) : Result :=
  s.unlessHalted fun s =>
    if 6 + 1 > s.maxLen then s.raise .payloadTooLarge
    else if timestampOk t then s.replaceFrame (c :: (tsEnc t).bytes)
    else s.raise .rangeError

/-- TSGET (R94): bytes 7 and up are ignored. -/
def execTsget (s : State) : Result :=
  s.unlessHalted fun s =>
    if s.flen.toNat < 7 then s.raise .badLength
    else s.withBytes typedFieldAddress 6 fun p => s.respondTimestamp (tsPayloadOf p)

/-- V16PUT c, v (R95): the capacity is tested before the range. -/
def execV16put (c : Byte) (v : Half) (s : State) : Result :=
  s.unlessHalted fun s =>
    if 2 + 1 > s.maxLen then s.raise .payloadTooLarge
    else if decimal16Ok v then s.replaceFrame (c :: (v16Enc v).bytes)
    else s.raise .rangeError

/-- V16GET (R96): bytes 3 and up are ignored. -/
def execV16get (s : State) : Result :=
  s.unlessHalted fun s =>
    if s.flen.toNat < 3 then s.raise .badLength
    else s.withBytes typedFieldAddress 2 fun p => s.respondValue (valuePayloadOf p)

end Sys2Proof.Machine
end

