-- ==== Sys2Proof/Machine/Dispatch.lean ====
section
/-! DEFINITION. One arm per instruction, each one call of its meaning. -/

namespace Sys2Proof.Machine

-- The effect of each operation on the state, its response included (spec files 40 to 45).
def exec (i : Instr) (s : State) : Host.Outcome State Fault Refusal :=
  match i with
  | .bcddec b => Sys2Proof.Machine.execBcddec b s
  | .bcdenc v => Sys2Proof.Machine.execBcdenc v s
  | .adrenc t n => Sys2Proof.Machine.execAdrenc t n s
  | .adrdec a => Sys2Proof.Machine.execAdrdec a s
  | .cmdenc dp dir opc => Sys2Proof.Machine.execCmdenc dp dir opc s
  | .cmddec c => Sys2Proof.Machine.execCmddec c s
  | .fbuild c p => Sys2Proof.Machine.execFbuild c p s
  | .fload f => Sys2Proof.Machine.execFload f s
  | .fparse => Sys2Proof.Machine.execFparse s
  | .fread => Sys2Proof.Machine.execFread s
  | .fclr => Sys2Proof.Machine.execFclr s
  | .tsenc t => Sys2Proof.Machine.execTsenc t s
  | .tsdec p => Sys2Proof.Machine.execTsdec p s
  | .v16enc v => Sys2Proof.Machine.execV16enc v s
  | .v16dec p => Sys2Proof.Machine.execV16dec p s
  | .tsput c t => Sys2Proof.Machine.execTsput c t s
  | .tsget => Sys2Proof.Machine.execTsget s
  | .v16put c v => Sys2Proof.Machine.execV16put c v s
  | .v16get => Sys2Proof.Machine.execV16get s
  | .status => Sys2Proof.Machine.execStatus s

end Sys2Proof.Machine
end

