-- ==== Sys2Proof/Machine/Request.lean ====
section
/-! DEFINITION. How the block serves what the host presents: a request packet in the order of 30_encoding.md R59, and a reset (70_reset_and_hazards.md R123). -/

namespace Sys2Proof.Machine

/-- A packet that carries no instruction is answered IllegalRequest: when its OPSEL is 0xF0 with nothing written and also under the fatal latch, else after the Halted test and with ST.ERR <- 6 (30_encoding.md R56 to R59, 60_exceptions.md R106, R107, R112). -/
def State.rejectRequest (s : State) (packet : List Byte) : Result :=
  if packet.head? = some Mnemonic.status.opsel then s.respondOnly .illegalRequest []
  else s.unlessHalted fun s => s.raise .illegalRequest

/-- Serve one request packet. A packet of no bytes is not a request: nothing is done and nothing answered (30_encoding.md R50). -/
def serveRequest (packet : List Byte) (s : State) : Result :=
  match decode packet with
  | .ok i => exec i s
  | .error .emptyPacket => .next s
  | .error .reservedOpsel => s.rejectRequest packet
  | .error .wrongLength => s.rejectRequest packet
  | .error .reservedOperand => s.rejectRequest packet

/-- Serve one event of the host. A reset during a request leaves the reset state, as if the request had never come (70_reset_and_hazards.md R123). -/
def serveEvent : HostEvent → State → Result
  | .request packet, s => serveRequest packet s
  | .reset, s => .next s.applyReset
  | .resetDuring _, s => .next s.applyReset

/-- Consume the oldest event and serve it; with none presented the block waits, unchanged (70_reset_and_hazards.md R135). -/
def serveNext (s : State) : Result :=
  match s.pending with
  | [] => .next s
  | e :: rest => serveEvent e { s with pending := rest }

/-- Present a request as the next event. -/
def State.present (s : State) (packet : List Byte) : State :=
  { s with pending := .request packet :: s.pending }

end Sys2Proof.Machine
end

