-- ==== Sys2Proof/Machine/Step.lean ====
section
/-! DEFINITION. One step of the block: one event of the host, whole (00_scope.md R9, R10). -/

namespace Sys2Proof.Machine

/-- One step (00_scope.md R9): the next request or reset, to completion. -/
def step (s : State) : Host.Outcome State Fault Refusal := serveNext s

/-- The state with the packet of a table word presented as the next event, so that the next step runs it. -/
def State.withFetchWord (s : State) (nbits w : Nat) : State :=
  s.present (packetOfWord nbits w)

end Sys2Proof.Machine
end

