-- ==== Sys2Proof/Machine/Assembly.lean ====
section
/-! DEFINITION. The spec's assembler syntax for requests (30_encoding.md R60) and its pseudo-instructions (R61): a line of text to the request packet it stands for. It is the host's notation; no step of the block reads it. -/

namespace Sys2Proof

/-- A mnemonic in capitals (30_encoding.md R54). -/
def Mnemonic.name : Mnemonic → String
  | .bcddec => "BCDDEC"
  | .bcdenc => "BCDENC"
  | .adrenc => "ADRENC"
  | .adrdec => "ADRDEC"
  | .cmdenc => "CMDENC"
  | .cmddec => "CMDDEC"
  | .fbuild => "FBUILD"
  | .fload => "FLOAD"
  | .fparse => "FPARSE"
  | .fread => "FREAD"
  | .fclr => "FCLR"
  | .tsenc => "TSENC"
  | .tsdec => "TSDEC"
  | .v16enc => "V16ENC"
  | .v16dec => "V16DEC"
  | .tsput => "TSPUT"
  | .tsget => "TSGET"
  | .v16put => "V16PUT"
  | .v16get => "V16GET"
  | .status => "STATUS"

/-- The other names of operations (30_encoding.md R61); HUBADDR brings operands of its own. -/
def aliasNames : List (String × Mnemonic) :=
  [("LOCALADDR", .adrenc), ("ENCADDR", .adrenc), ("DECADDR", .adrdec), ("BUILDFRAME", .fbuild),
   ("PARSEFRAME", .fparse), ("ENCTS", .tsenc), ("DECTS", .tsdec), ("DEC16", .v16dec)]

/-- The operation a name of a line stands for, its own or another (30_encoding.md R54, R61). -/
def mnemonicNamed (w : List Char) : Option Mnemonic :=
  (Mnemonic.all.find? fun m => m.name.toList == w).or
    ((aliasNames.find? fun p => p.1.toList == w).map (·.2))

/-- The pieces of a line. -/
inductive AsmToken where
  | word (w : List Char)
  | comma
  | openBracket
  | closeBracket
  deriving DecidableEq, Repr

/-- An operand as written (30_encoding.md R60). -/
inductive AsmOperand where
  | number (n : Nat)
  | direction (d : Direction)
  | sequence (ns : List Nat)
  deriving DecidableEq, Repr

/-- How an operand assembles: a byte, a 16-bit number high byte first, a direction, or a byte sequence with its length byte before it (30_encoding.md R60). -/
inductive AsmKind where
  | byte
  | half
  | direction
  | counted
  deriving DecidableEq, Repr

/-- The operand column of the OPSEL map (30_encoding.md R54). -/
def Mnemonic.operandKinds : Mnemonic → List AsmKind
  | .bcddec | .bcdenc | .adrdec | .cmddec => [.byte]
  | .adrenc => [.byte, .byte]
  | .cmdenc => [.byte, .direction, .byte]
  | .fbuild => [.byte, .counted]
  | .fload => [.counted]
  | .tsenc => [.half, .byte, .byte, .byte, .byte]
  | .tsdec => [.byte, .byte, .byte, .byte, .byte, .byte]
  | .v16enc => [.half]
  | .v16dec => [.byte, .byte]
  | .tsput => [.byte, .half, .byte, .byte, .byte, .byte]
  | .v16put => [.byte, .half]
  | .fparse | .fread | .fclr | .tsget | .v16get | .status => []

/-- The word read so far, if there is one. -/
def flushWord (acc : List Char) : List AsmToken := if acc.isEmpty then [] else [.word acc.reverse]

/-- Cut a line into pieces; text after `;` is a comment (30_encoding.md R60), spaces separate. -/
def lexLine : List Char → List Char → List AsmToken
  | acc, [] => flushWord acc
  | acc, c :: cs =>
    if c = ';' then flushWord acc
    else if c = ' ' then flushWord acc ++ lexLine [] cs
    else if c = ',' then flushWord acc ++ .comma :: lexLine [] cs
    else if c = '[' then flushWord acc ++ .openBracket :: lexLine [] cs
    else if c = ']' then flushWord acc ++ .closeBracket :: lexLine [] cs
    else lexLine (c :: acc) cs

/-- The digits of a decimal or hexadecimal number, each at the place of its worth. -/
def digitCharacters : List Char := "0123456789ABCDEF".toList

/-- The worth of a digit character. The spec's numbers have capital hexadecimal digits (30_encoding.md R60); that small ones are read too is the model's choice (DESIGN CHOICE, log 17). -/
def digitOf (c : Char) : Option Nat := digitCharacters.findIdx? fun d => d == c.toUpper

/-- Digits in a base, most significant first, after the number read so far. -/
def digitsOf (base : Nat) : Nat → List Char → Option Nat
  | n, [] => some n
  | n, c :: cs => (digitOf c).bind fun d => if d < base then digitsOf base (base * n + d) cs else none

/-- A number is decimal or `0x` hexadecimal (30_encoding.md R60). -/
def numberOf : List Char → Option Nat
  | [] => none
  | ['0', 'x'] => none
  | '0' :: 'x' :: ds => digitsOf 16 0 ds
  | ds => digitsOf 10 0 ds

/-- A word as an operand: N2H, H2N or a number (30_encoding.md R60). -/
def operandOf (w : List Char) : Option AsmOperand :=
  if w = "N2H".toList then some (.direction .nodeToHub)
  else if w = "H2N".toList then some (.direction .hubToNode)
  else (numberOf w).map .number

/-- Where the reading of the operands stands. -/
inductive AsmMode where
  | wantOperand
  | afterOperand
  | opened
  | wantElement (read : List Nat)
  | afterElement (read : List Nat)

/-- The operands of a line, separated by commas, byte sequences in square brackets (30_encoding.md R60). -/
def readOperands : AsmMode → List AsmOperand → List AsmToken → Option (List AsmOperand)
  | .afterOperand, done, [] => some done.reverse
  | .afterOperand, done, .comma :: ts => readOperands .wantOperand done ts
  | .wantOperand, done, .word w :: ts => (operandOf w).bind fun o => readOperands .afterOperand (o :: done) ts
  | .wantOperand, done, .openBracket :: ts => readOperands .opened done ts
  | .opened, done, .closeBracket :: ts => readOperands .afterOperand (.sequence [] :: done) ts
  | .opened, done, .word w :: ts => (numberOf w).bind fun n => readOperands (.afterElement [n]) done ts
  | .afterElement ns, done, .comma :: ts => readOperands (.wantElement ns) done ts
  | .afterElement ns, done, .closeBracket :: ts => readOperands .afterOperand (.sequence ns.reverse :: done) ts
  | .wantElement ns, done, .word w :: ts => (numberOf w).bind fun n => readOperands (.afterElement (n :: ns)) done ts
  | _, _, _ => none

/-- A number that fits a byte. -/
def asmByte (n : Nat) : Option Byte := if n < 256 then some (BitVec.ofNat 8 n) else none

/-- The bytes of one operand (30_encoding.md R60). -/
def assembleOperand : AsmKind → AsmOperand → Option (List Byte)
  | .byte, .number n => (asmByte n).map ([·])
  | .half, .number n =>
    if n < 65536 then some [hi8 (BitVec.ofNat 16 n), lo8 (BitVec.ofNat 16 n)] else none
  | .direction, .number n => (asmByte n).map ([·])
  | .direction, .direction d => some [byteOfDirection d]
  | .counted, .sequence ns =>
    (ns.mapM asmByte).bind fun bs => (asmByte ns.length).map (· :: bs)
  | _, _ => none

/-- The bytes of the operands, one for each kind. -/
def assembleOperands : List AsmKind → List AsmOperand → Option (List Byte)
  | [], [] => some []
  | k :: ks, o :: os => (assembleOperand k o).bind fun bs => (assembleOperands ks os).map (bs ++ ·)
  | _, _ => none

/-- Brackets around the whole operand list. The spec writes them for FBUILD and FLOAD (30_encoding.md R60) and for TSDEC and V16DEC (44_typed_fields.md R90, R92; R61). It does not say whether another operation whose operands are all bytes may have them: that every such operation takes them (`BCDDEC [0x25]`, `ADRENC [15, 0]`), and one without operands an empty pair (`FPARSE []`), is the model's choice (DESIGN CHOICE, log 17). -/
def flattenBytes (kinds : List AsmKind) : List AsmOperand → List AsmOperand
  | [.sequence ns] => if kinds.all (· == .byte) then ns.map .number else [.sequence ns]
  | os => os

/-- The bytes of a `.bytes` line (30_encoding.md R60). -/
def rawByte : AsmOperand → Option Byte
  | .number n => asmByte n
  | _ => none

/-- A line of the assembler to its request packet (30_encoding.md R60, R61); `none` for a line that names no operation or does not fit it. -/
def assemble (line : List Char) : Option (List Byte) :=
  match lexLine [] line with
  | .word w :: ts =>
    (if ts.isEmpty then some [] else readOperands .wantOperand [] ts).bind fun os =>
      if w = ".bytes".toList then os.mapM rawByte
      else if w = "HUBADDR".toList then
        if os.isEmpty then some [Mnemonic.opsel .adrenc, 0x0F#8, 0x00#8] else none
      else (mnemonicNamed w).bind fun m =>
        (assembleOperands m.operandKinds (flattenBytes m.operandKinds os)).map (m.opsel :: ·)
  | _ => none

end Sys2Proof
end

