-- ==== Sys2Proof/Safety.lean ====
section
/-! DEFINITION. What counts as a good state and a good run: the state invariant of 10_state.md R18, the reachable status values of 60_exceptions.md R113, a legal configuration (00_scope.md R6), and runs and the safety premise of 70_reset_and_hazards.md R135. -/

namespace Sys2Proof.Machine

/-- 10_state.md R18, with the model's canonical form of the buffer: FLEN <= MAXLEN, and every byte at FLEN or past it is 0x00. -/
def State.FrameInv (s : State) : Prop :=
  s.frame.wf = true ∧ s.flen.toNat ≤ s.maxLen ∧ ∀ k, s.flen.toNat ≤ k → s.readByte k = 0x00#8

/-- The reachable values of ST (60_exceptions.md R113). -/
def reachableSt : List Byte := [0x00#8, 0x02#8, 0x03#8, 0x04#8, 0x05#8, 0x06#8, 0x81#8]

/-- ST holds one of its reachable values (60_exceptions.md R113). -/
def State.StatusInv (s : State) : Prop := s.st ∈ reachableSt

/-- The invariant of the machine: a legal configuration, the buffer's invariant and the status values. -/
def State.Inv (s : State) : Prop :=
  Config.legalMaxLen s.cfgMaxLen ∧ s.FrameInv ∧ s.StatusInv

/-- The block has not entered the halted condition: the safety premise "ST.FATAL = 0" (70_reset_and_hazards.md R135). -/
def State.safe (s : State) : Prop := s.fatal = false

/-- A start state with a list of host events to process (70_reset_and_hazards.md R135). -/
def State.withEvents (s : State) (events : List HostEvent) : State := { s with pending := events }

/-- A run of the block over a list of host events: it ends when the list is used up (70_reset_and_hazards.md R135). -/
def runEvents (s : State) (events : List HostEvent) : Result :=
  Host.Core.run Sys2Proof.core events.length (s.withEvents events)

/-- A run that goes well: no state along it is in the halted condition. It is the safety premise of 70_reset_and_hazards.md R135 as program P4 of 95_test_vectors.md applies it: a run that passes through the halted condition and is then reset is rejected at the step that halts. -/
def SafeRun (s : State) (events : List HostEvent) : Prop :=
  ∀ k ≤ events.length, ∀ t, Host.Core.run Sys2Proof.core k (s.withEvents events) = .next t → t.safe

end Sys2Proof.Machine
end

