-- ==== Sys2Proof/Certificates/Slice0/Obligations.lean ====
section
/-! DEFINITION. The statements for the provers, each with the rule of spec/ it formalises. The helpers of namespace Reading write the spec's own words out over the plain fields of State, so that a statement's right side does not rest on the operation it speaks about. -/

open Sys2Proof Sys2Proof.Machine

namespace Sys2Proof.Reading

/-- ST.FATAL = 1: bit 7 of ST (10_state.md R20). -/
abbrev latched (s : State) : Prop := s.st.getLsbD 7 = true

/-- ST.FATAL = 0. -/
abbrev unlatched (s : State) : Prop := s.st.getLsbD 7 = false

/-- The state after a response that writes ST.ERR and nothing else: bits 2 to 0 of ST become the code, the response is the code and the results (60_exceptions.md R112 (c)). Every other field is as before. -/
def answered (s : State) (code : Byte) (results : List Byte) : State :=
  { s with st := (s.st &&& 0xF8#8) ||| code, responses := s.responses ++ [code :: results] }

/-- The state after a response that writes nothing at all (60_exceptions.md R112 (a), (b)). -/
def answeredOnly (s : State) (code : Byte) (results : List Byte) : State :=
  { s with responses := s.responses ++ [code :: results] }

/-- The state after a ConfigurationError: FATAL and ERR = 1 written, the response is the status byte (60_exceptions.md R112 (c), (d)). -/
def configurationFailed (s : State) : State :=
  { s with st := (s.st &&& 0xF8#8) ||| 0x81#8, responses := s.responses ++ [[0x01#8]] }

/-- The state after a frame was put in the buffer and answered OK: all MAXLEN bytes of F hold the frame and then 0x00, FLEN its length, ERR = 0; an address past MAXLEN reads as before, and nothing else changes (43_frame.md R78). -/
def frameStored (s t : State) (f : List Byte) : Prop :=
  t.frame.wf = true ∧
  (∀ k, k < s.maxLen → t.readByte k = f.getD k 0x00#8) ∧
  (∀ k, s.maxLen ≤ k → t.readByte k = s.readByte k) ∧
  t.flen.toNat = f.length ∧
  t.st = s.st &&& 0xF8#8 ∧
  t.responses = s.responses ++ [[0x00#8]] ∧
  t.cfgMaxLen = s.cfgMaxLen ∧
  t.pending = s.pending

/-- An operation's own request: OPSEL and exactly k operand bytes; with another number of bytes the request fails with IllegalRequest (30_encoding.md R57). -/
def onlyWithOperands (op : Byte) (k : Nat) : Prop :=
  ∀ (s : State) (args : List Byte) (rest : List HostEvent),
    s.pending = .request (op :: args) :: rest → unlatched s → args.length ≠ k →
      step s = .next (answered { s with pending := rest } 0x06#8 [])

/-- While ST.FATAL = 1 the operation is refused with Halted and changes nothing (60_exceptions.md R107). -/
def haltedWhenLatched (i : Instr) : Prop :=
  ∀ s : State, latched s → exec i s = .next (answeredOnly s 0x07#8 [])

/-- The decimal worth of a BCD byte, `10*b[7:4] + b[3:0]` (30_encoding.md R44). -/
def worth (b : Byte) : Nat := 10 * (b.toNat / 16) + b.toNat % 16

/-- Both nibbles are at most 9 (30_encoding.md R44). -/
abbrev wellFormedBcd (b : Byte) : Prop := b.toNat / 16 ≤ 9 ∧ b.toNat % 16 ≤ 9

/-- The worth of two BCD bytes, high part first (44_typed_fields.md R85). -/
def worth2 (h l : Byte) : Nat := 100 * worth h + worth l

/-- A 16-bit number as two bytes, high byte first (20_memory.md R33). -/
def twoBytes (n : Nat) : List Byte := [BitVec.ofNat 8 (n / 256), BitVec.ofNat 8 (n % 256)]

/-- The result bytes of a decoded timestamp payload (44_typed_fields.md R90). -/
def timestampResult (p : TsPayload) : List Byte :=
  twoBytes (worth2 p.yearHigh p.yearLow) ++
    [BitVec.ofNat 8 (worth p.month), BitVec.ofNat 8 (worth p.day), BitVec.ofNat 8 (worth p.hour), BitVec.ofNat 8 (worth p.minute)]

/-- All six bytes of a timestamp payload are well formed. -/
abbrev wellFormedTs (p : TsPayload) : Prop := ∀ b ∈ p.bytes, wellFormedBcd b

/-- The BCD byte of tens and units, 0 to 99 (40_bcd.md R64). -/
def bcdByte (n : Nat) : Byte := BitVec.ofNat 8 (16 * (n / 10) + n % 10)

/-- The fields of a timestamp an encode accepts (44_typed_fields.md R89). -/
abbrev encodable (t : Timestamp) : Prop :=
  t.year.toNat ≤ 9999 ∧ t.month.toNat ≤ 99 ∧ t.day.toNat ≤ 99 ∧ t.hour.toNat ≤ 99 ∧ t.minute.toNat ≤ 99

/-- The six bytes of an encoded timestamp (44_typed_fields.md R86). -/
def timestampBytes (t : Timestamp) : List Byte :=
  [bcdByte (t.year.toNat / 100), bcdByte (t.year.toNat % 100), bcdByte t.month.toNat, bcdByte t.day.toNat,
   bcdByte t.hour.toNat, bcdByte t.minute.toNat]

/-- The two bytes of an encoded 16-bit value (44_typed_fields.md R87). -/
def valueBytes (v : Half) : List Byte := [bcdByte (v.toNat / 100), bcdByte (v.toNat % 100)]

/-- The bytes F[a], F[a+1], ..., n of them (00_scope.md R13). -/
def bytesAt (s : State) (a n : Nat) : List Byte := (List.range n).map fun j => s.readByte (a + j)

/-- The timestamp field of the frame, F[1] to F[6] (20_memory.md R31). -/
def tsFieldOf (s : State) : TsPayload :=
  ⟨s.readByte 1, s.readByte 2, s.readByte 3, s.readByte 4, s.readByte 5, s.readByte 6⟩

/-- The reserved OPSEL values as 30_encoding.md R56 lists them. -/
abbrev reservedOpsel (op : Byte) : Prop :=
  (0x02 ≤ op.toNat ∧ op.toNat ≤ 0x0F) ∨ (0x12 ≤ op.toNat ∧ op.toNat ≤ 0x1F) ∨ (0x22 ≤ op.toNat ∧ op.toNat ≤ 0x2F) ∨
  (0x35 ≤ op.toNat ∧ op.toNat ≤ 0x3F) ∨ (0x48 ≤ op.toNat ∧ op.toNat ≤ 0x4F) ∨ (0x50 ≤ op.toNat ∧ op.toNat ≤ 0xEF) ∨
  (0xF1 ≤ op.toNat ∧ op.toNat ≤ 0xFF)

/-- The requests of a fixed length: OPSEL and the length in bytes (30_encoding.md R52, R54, R57). -/
def fixedLengths : List (Byte × Nat) :=
  [(0x00#8, 2), (0x01#8, 2), (0x10#8, 3), (0x11#8, 2), (0x20#8, 4), (0x21#8, 2), (0x32#8, 1), (0x33#8, 1), (0x34#8, 1),
   (0x40#8, 7), (0x41#8, 7), (0x42#8, 3), (0x43#8, 3), (0x44#8, 8), (0x45#8, 1), (0x46#8, 4), (0x47#8, 1), (0xF0#8, 1)]

/-- Two states agree on the block's own state, F, FLEN and ST, and on its configuration (10_state.md R15). -/
abbrev sameBlock (s s' : State) : Prop :=
  s.frame = s'.frame ∧ s.flen = s'.flen ∧ s.st = s'.st ∧ s.cfgMaxLen = s'.cfgMaxLen

/-- Two runs of one operation end in a next state and give the same response. -/
abbrev sameResponse (i : Instr) (s s' : State) : Prop :=
  ∃ t t' r, exec i s = .next t ∧ exec i s' = .next t' ∧
    t.responses = s.responses ++ [r] ∧ t'.responses = s'.responses ++ [r]

/-- An operation ends in a next state and gives this response. -/
abbrev responds (i : Instr) (s t : State) (r : List Byte) : Prop :=
  exec i s = .next t ∧ t.responses = s.responses ++ [r]

end Sys2Proof.Reading

open Sys2Proof.Reading

/-! ### Reset, invariants, runs -/

/-- 10_state.md R27, for the state after reset and for a reset that the host applies in any state. -/
def Obligations.ResetClearsBufferLengthAndStatus : Prop :=
  (∀ k, State.reset.readByte k = 0x00#8) ∧ State.reset.flen = 0x00#8 ∧ State.reset.st = 0x00#8 ∧
    State.reset.cfgMaxLen = 0x0A#8 ∧
  ∀ (s : State) (rest : List HostEvent), s.pending = .reset :: rest →
    ∃ t, step s = .next t ∧ (∀ k, t.readByte k = 0x00#8) ∧ t.flen = 0x00#8 ∧ t.st = 0x00#8 ∧ t.cfgMaxLen = s.cfgMaxLen

/-- 70_reset_and_hazards.md R123: reset is taken in every state, also during a request, with no response; it is the only event that clears ST.FATAL. -/
def Obligations.OnlyResetClearsTheFatalLatch : Prop :=
  (∀ (s : State) (packet : List Byte) (rest : List HostEvent),
    s.pending = .reset :: rest ∨ s.pending = .resetDuring packet :: rest →
      step s = .next { frame := [], flen := 0x00#8, st := 0x00#8, cfgMaxLen := s.cfgMaxLen, pending := rest, responses := s.responses }) ∧
  ∀ s t : State, latched s → step s = .next t → unlatched t →
    ∃ (packet : List Byte) (rest : List HostEvent), s.pending = .reset :: rest ∨ s.pending = .resetDuring packet :: rest

/-- The invariant of the machine holds at reset. -/
def Obligations.InvariantHoldsAtReset : Prop := State.reset.Inv

/-- 10_state.md R18, which the spec itself infers from R27 and the operations' write sets ("Invariant of the state, true after reset and kept by every operation"): FLEN <= MAXLEN and zero bytes past the frame; with it the model's canonical form of the buffer (log 6). -/
def Obligations.FrameInvariantKeptByEveryStep : Prop :=
  State.reset.FrameInv ∧ ∀ s t : State, s.FrameInv → step s = .next t → t.FrameInv

/-- 60_exceptions.md R113, the spec's own inference from R112, R107 and 10_state.md R22 ("The reachable values of ST"): every step keeps ST among the seven values, each is reached from reset, and a set latch leaves ST as it is until reset. -/
def Obligations.StatusKeepsToTheReachableValues : Prop :=
  State.reset.StatusInv ∧
  (∀ s t : State, s.StatusInv → step s = .next t → t.StatusInv) ∧
  (∀ v ∈ reachableSt, ∃ (events : List HostEvent) (t : State), runEvents State.reset events = .next t ∧ t.st = v) ∧
  ∀ s t : State, latched s → step s = .next t →
    t.st = s.st ∨ ∃ (packet : List Byte) (rest : List HostEvent), s.pending = .reset :: rest ∨ s.pending = .resetDuring packet :: rest

/-- A configuration never changes (10_state.md R23), and a state that keeps the buffer's invariant never stops: every step answers a next state (20_memory.md R35). Among the steps are the model's idle step (log 4), its consuming of an empty packet (log 5) and the steps of a state with MAXLEN = 0, which is no legal configuration (log 9). -/
def Obligations.NoStepStopsUnderTheFrameInvariant : Prop :=
  ∀ s : State, s.FrameInv → ∃ t, step s = .next t ∧ t.cfgMaxLen = s.cfgMaxLen

/-- 70_reset_and_hazards.md R135, 30_encoding.md R50, R51: from a state with the invariant every list of events is used up, and every request of at least one byte that is not abandoned by a reset gets exactly one response. -/
def Obligations.EveryRunEndsWithOneResponsePerRequest : Prop :=
  ∀ (s : State) (events : List HostEvent), s.Inv →
    ∃ t, runEvents s events = .next t ∧ t.Inv ∧ t.pending = [] ∧
      ∃ answers : List (List Byte), t.responses = s.responses ++ answers ∧ (∀ r ∈ answers, r ≠ []) ∧
        answers.length = events.countP fun e => match e with
          | .request packet => !packet.isEmpty
          | .reset => false
          | .resetDuring _ => false

/-! ### Encoding -/

/-- Decode of encode is the instruction, for every well-formed instruction and every operand. -/
def Obligations.DecodeOfEncodeIsTheInstruction : Prop :=
  ∀ i : Instr, i.wellFormed = true → decode (encode i) = .ok i

/-- A packet that decodes is exactly the packet of the well-formed instruction it decodes to. -/
def Obligations.EncodeOfDecodeIsThePacket : Prop :=
  ∀ (packet : List Byte) (i : Instr), decode packet = .ok i → i.wellFormed = true ∧ encode i = packet

/-- Words written out from the encodings of 30_encoding.md R54, R60. -/
def Obligations.WrittenOutPacketsDecode : Prop :=
  decode [0x00#8, 0x25#8] = .ok (.bcddec 0x25#8) ∧
  decode [0x10#8, 0x0F#8, 0x00#8] = .ok (.adrenc 15#8 0#8) ∧
  decode [0x20#8, 0x01#8, 0x00#8, 0x05#8] = .ok (.cmdenc true .nodeToHub 5#8) ∧
  decode [0x30#8, 0x85#8, 0x02#8, 0x23#8, 0x45#8] = .ok (.fbuild 0x85#8 [0x23#8, 0x45#8]) ∧
  decode [0x31#8, 0x03#8, 0x85#8, 0x23#8, 0x45#8] = .ok (.fload [0x85#8, 0x23#8, 0x45#8]) ∧
  decode [0x40#8, 0x07#8, 0xE7#8, 0x06#8, 0x0F#8, 0x0E#8, 0x1E#8] = .ok (.tsenc ⟨2023#16, 6#8, 15#8, 14#8, 30#8⟩) ∧
  decode [0x46#8, 0x85#8, 0x09#8, 0x29#8] = .ok (.v16put 0x85#8 2345#16) ∧
  decode [0xF0#8] = .ok .status

/-- A step whose next request decodes is that instruction's effect on the state with the request consumed (20_memory.md R39, 30_encoding.md R59 (5)). -/
def Obligations.StepRunsTheDecodedInstruction : Prop :=
  ∀ (s : State) (packet : List Byte) (rest : List HostEvent) (i : Instr),
    s.pending = .request packet :: rest → decode packet = .ok i → step s = exec i { s with pending := rest }

/-- 30_encoding.md R59: the Halted test looks at OPSEL alone and comes first; then a packet that does not decode is IllegalRequest, which for OPSEL 0xF0 writes nothing (60_exceptions.md R112); then the operation. -/
def Obligations.RequestsAreServedInTheDecodingOrder : Prop :=
  ∀ (s : State) (op : Byte) (args : List Byte) (rest : List HostEvent), s.pending = .request (op :: args) :: rest →
    step s =
      if s.st.getLsbD 7 = true ∧ op ≠ 0xF0#8 then .next (answeredOnly { s with pending := rest } 0x07#8 [])
      else match decode (op :: args) with
        | .ok i => exec i { s with pending := rest }
        | .error _ =>
          if op = 0xF0#8 then .next (answeredOnly { s with pending := rest } 0x06#8 [])
          else .next (answered { s with pending := rest } 0x06#8 [])

/-- 30_encoding.md R50: a packet of no bytes is no request, nothing is done and nothing answered; with nothing presented the block waits (70_reset_and_hazards.md R135). The model consumes the packet and stays in its state (log 4, log 5). -/
def Obligations.EmptyPacketAndNoPacketDoNothing : Prop :=
  (∀ s : State, s.pending = [] → step s = .next s) ∧
  ∀ (s : State) (rest : List HostEvent), s.pending = .request [] :: rest → step s = .next { s with pending := rest }

/-- 30_encoding.md R56: the 236 reserved OPSEL values are IllegalRequest whatever follows, writing ST.ERR only. -/
def Obligations.ReservedOpselIsIllegal : Prop :=
  ((List.range 256).filter fun n => decide (reservedOpsel (BitVec.ofNat 8 n))).length = 236 ∧
  (∀ op : Byte, reservedOpsel op ↔ ∀ i : Instr, (encode i).head? ≠ some op) ∧
  ∀ (s : State) (op : Byte) (args : List Byte) (rest : List HostEvent),
    s.pending = .request (op :: args) :: rest → unlatched s → reservedOpsel op →
      step s = .next (answered { s with pending := rest } 0x06#8 [])

/-- 30_encoding.md R57: the length a request should have, and IllegalRequest for every other (for OPSEL 0xF0 with nothing written). -/
def Obligations.WrongLengthIsIllegal : Prop :=
  (∀ p ∈ fixedLengths, ∀ args : List Byte, decode (p.1 :: args) = .error .wrongLength ↔ args.length + 1 ≠ p.2) ∧
  (∀ args : List Byte, decode (0x31#8 :: args) = .error .wrongLength ↔
    ¬ ∃ (l : Byte) (f : List Byte), args = l :: f ∧ f.length = l.toNat) ∧
  (∀ args : List Byte, decode (0x30#8 :: args) = .error .wrongLength ↔
    ¬ ∃ (c n : Byte) (p : List Byte), args = c :: n :: p ∧ p.length = n.toNat) ∧
  ∀ (s : State) (op : Byte) (args : List Byte) (rest : List HostEvent),
    s.pending = .request (op :: args) :: rest → decode (op :: args) = .error .wrongLength →
      (op ≠ 0xF0#8 → unlatched s → step s = .next (answered { s with pending := rest } 0x06#8 [])) ∧
      (op = 0xF0#8 → step s = .next (answeredOnly { s with pending := rest } 0x06#8 []))

/-- 30_encoding.md R58: a Boolean or direction operand of 2 to 255 is IllegalRequest; it concerns CMDENC only. -/
def Obligations.ReservedFlagOperandIsIllegal : Prop :=
  (∀ packet : List Byte, decode packet = .error .reservedOperand ↔
    ∃ dp dir opc : Byte, packet = [0x20#8, dp, dir, opc] ∧ (2 ≤ dp.toNat ∨ 2 ≤ dir.toNat)) ∧
  ∀ (s : State) (dp dir opc : Byte) (rest : List HostEvent),
    s.pending = .request [0x20#8, dp, dir, opc] :: rest → unlatched s → 2 ≤ dp.toNat ∨ 2 ≤ dir.toNat →
      step s = .next (answered { s with pending := rest } 0x06#8 [])

/-! ### Errors -/

/-- 60_exceptions.md R107: under the fatal latch every request but OPSEL 0xF0 answers the single byte 7 and changes nothing; 7 is never stored in ST.ERR. -/
def Obligations.HaltedRefusesEveryOtherRequest : Prop :=
  (∀ (s : State) (op : Byte) (args : List Byte) (rest : List HostEvent),
    s.pending = .request (op :: args) :: rest → latched s → op ≠ 0xF0#8 →
      step s = .next { s with pending := rest, responses := s.responses ++ [[0x07#8]] }) ∧
  ∀ s t : State, step s = .next t → t.st &&& 0x07#8 = 0x07#8 → s.st &&& 0x07#8 = 0x07#8

/-- 60_exceptions.md R112: the complete list of the writes of ST. -/
def Obligations.StatusRegisterWritesAreComplete : Prop :=
  (∀ (s t : State) (op : Byte) (args : List Byte) (rest : List HostEvent),
    s.pending = .request (op :: args) :: rest → step s = .next t →
      ∃ (code : Byte) (results : List Byte), t.responses = s.responses ++ [code :: results] ∧
        (code = 0x07#8 ↔ latched s ∧ op ≠ 0xF0#8) ∧
        t.st =
          if code = 0x07#8 ∨ op = 0xF0#8 then s.st
          else if code = 0x01#8 then (s.st &&& 0xF8#8) ||| 0x81#8
          else (s.st &&& 0xF8#8) ||| code) ∧
  ∀ s t : State, step s = .next t → t.st ≠ s.st → ∃ (e : HostEvent) (rest : List HostEvent), s.pending = e :: rest ∧ e ≠ .request []

/-- 60_exceptions.md R111: a failed operation writes nothing to F and FLEN, writes ST as R112 says, answers the status byte alone and leaves the block ready unless it was a ConfigurationError; one that ends with MalformedBcd writes ST.ERR only. -/
def Obligations.FailedOperationsWriteOnlyStatus : Prop :=
  ∀ (s t : State) (op : Byte) (args : List Byte) (rest : List HostEvent) (code : Byte) (results : List Byte),
    s.pending = .request (op :: args) :: rest → step s = .next t →
    t.responses = s.responses ++ [code :: results] → code ≠ 0x00#8 →
      t.frame = s.frame ∧ t.flen = s.flen ∧ t.cfgMaxLen = s.cfgMaxLen ∧ t.pending = rest ∧
      (code ≠ 0x03#8 → results = []) ∧
      (code = 0x03#8 → results ≠ []) ∧
      (code ≠ 0x01#8 → t.st.getLsbD 7 = s.st.getLsbD 7) ∧
      t.st =
        if code = 0x07#8 ∨ op = 0xF0#8 then s.st
        else if code = 0x01#8 then (s.st &&& 0xF8#8) ||| 0x81#8
        else (s.st &&& 0xF8#8) ||| code

/-! ### Frames of the operations -/

/-- 10_state.md R28, the write sets, the spec's own inference from the operations' rules ("the complete read and write set of every operation"): only FBUILD, FLOAD, FCLR, TSPUT and V16PUT write F and FLEN, and only when they answer OK; only ADRENC and CMDENC set ST.FATAL; STATUS writes nothing; CFG and the host's queue are never written, and each operation gives one response. -/
def Obligations.OperationsWriteOnlyTheirWriteSet : Prop :=
  ∀ (i : Instr) (s t : State), exec i s = .next t →
    t.cfgMaxLen = s.cfgMaxLen ∧ t.pending = s.pending ∧
    (i = .status → t.st = s.st) ∧
    (i.mnemonic ∉ [.fbuild, .fload, .fclr, .tsput, .v16put] → t.frame = s.frame ∧ t.flen = s.flen) ∧
    (i.mnemonic ∉ [.adrenc, .cmdenc] → t.st.getLsbD 7 = s.st.getLsbD 7) ∧
    (t.st &&& 0x78#8 = s.st &&& 0x78#8) ∧
    ∃ (code : Byte) (results : List Byte), t.responses = s.responses ++ [code :: results] ∧
      (t.frame ≠ s.frame ∨ t.flen ≠ s.flen → code = 0x00#8) ∧
      (t.st.getLsbD 7 ≠ s.st.getLsbD 7 → code = 0x01#8)

/-- 10_state.md R28, the read sets, the spec's own inference from the operations' rules ("the complete read and write set of every operation"): the operations on packets and the writers answer the same whatever the buffer holds; FPARSE and FREAD read F[0..FLEN-1] and FLEN, TSGET F[1..6] and FLEN, V16GET F[1..2] and FLEN. -/
def Obligations.OperationsReadOnlyTheirReadSet : Prop :=
  ∀ s s' : State, s.FrameInv → s'.FrameInv → s.st = s'.st → s.cfgMaxLen = s'.cfgMaxLen →
    (∀ i : Instr, i.mnemonic ∉ [.fparse, .fread, .tsget, .v16get] → sameResponse i s s') ∧
    (s.flen = s'.flen → (∀ k, k < s.flen.toNat → s.readByte k = s'.readByte k) →
      sameResponse .fparse s s' ∧ sameResponse .fread s s') ∧
    (s.flen = s'.flen → (∀ k, 1 ≤ k → k ≤ 6 → s.readByte k = s'.readByte k) → sameResponse .tsget s s') ∧
    (s.flen = s'.flen → (∀ k, 1 ≤ k → k ≤ 2 → s.readByte k = s'.readByte k) → sameResponse .v16get s s')

/-- 10_state.md R25: the response and the new state are a function of the request and of (F, FLEN, ST) alone: neither the earlier responses nor the later requests change them. -/
def Obligations.ResponseDependsOnRequestAndBlockOnly : Prop :=
  ∀ (s s' t : State) (packet : List Byte) (rest rest' : List HostEvent),
    sameBlock s s' → s.pending = .request packet :: rest → s'.pending = .request packet :: rest' →
    step s = .next t →
      ∃ (t' : State) (answers : List (List Byte)), step s' = .next t' ∧ sameBlock t t' ∧
        t.responses = s.responses ++ answers ∧ t'.responses = s'.responses ++ answers

/-- 20_memory.md R37: FPARSE, FREAD, TSGET and V16GET leave F and FLEN as they were and change only ST.ERR, and in every later state with the same buffer (and the same latch) they answer the same. -/
def Obligations.ReadingTheBufferHasNoSideEffect : Prop :=
  ∀ (i : Instr) (s t : State), i.mnemonic ∈ [.fparse, .fread, .tsget, .v16get] → exec i s = .next t →
    t.frame = s.frame ∧ t.flen = s.flen ∧ t.cfgMaxLen = s.cfgMaxLen ∧ t.pending = s.pending ∧
    t.st &&& 0xF8#8 = s.st &&& 0xF8#8 ∧
    ∃ r : List Byte, t.responses = s.responses ++ [r] ∧
      ∀ u : State, u.frame = s.frame → u.flen = s.flen → u.cfgMaxLen = s.cfgMaxLen → (latched u ↔ latched s) →
        ∃ w, exec i u = .next w ∧ w.responses = u.responses ++ [r]

/-- 44_typed_fields.md R88: no typed operation looks at the command byte. -/
def Obligations.TypedOperationsIgnoreTheCommandByte : Prop :=
  (∀ s s' : State, s.FrameInv → s'.FrameInv → s.st = s'.st → s.cfgMaxLen = s'.cfgMaxLen → s.flen = s'.flen →
    (∀ k, k ≠ 0 → s.readByte k = s'.readByte k) → sameResponse .tsget s s' ∧ sameResponse .v16get s s') ∧
  ∀ (s : State) (c c' : Byte), s.FrameInv →
    (∀ ts : Timestamp, ∃ t t', exec (.tsput c ts) s = .next t ∧ exec (.tsput c' ts) s = .next t' ∧
      t.responses = t'.responses ∧ t.flen = t'.flen ∧ t.st = t'.st ∧ ∀ k, k ≠ 0 → t.readByte k = t'.readByte k) ∧
    (∀ v : Half, ∃ t t', exec (.v16put c v) s = .next t ∧ exec (.v16put c' v) s = .next t' ∧
      t.responses = t'.responses ∧ t.flen = t'.flen ∧ t.st = t'.st ∧ ∀ k, k ≠ 0 → t.readByte k = t'.readByte k)

/-- 00_scope.md R13: MemWrite and MemRead are defined exactly within the buffer; a write is read back and leaves every other byte. -/
def Obligations.MemoryWritesAreReadBack : Prop :=
  ∀ (s : State) (a : Nat) (vs : List Byte), s.frame.wf = true →
    (a + vs.length ≤ s.maxLen → ∃ t, s.memWrite a vs = some t ∧ t.frame.wf = true ∧
      t.memRead a vs.length = some vs ∧ (∀ k, k < a ∨ a + vs.length ≤ k → t.readByte k = s.readByte k) ∧
      t = { s with frame := t.frame }) ∧
    (s.maxLen < a + vs.length → s.memWrite a vs = none ∧ s.memRead a vs.length = none)

/-- The model's choice (log 7): an access past MAXLEN-1, which 20_memory.md R35 says cannot happen, is a fault: in a state with FLEN > MAXLEN, which no run reaches, each of the four operations that read the buffer stops at its first access that does not fit: FREAD, FPARSE (at its command byte when MAXLEN = 0, log 9), TSGET when FLEN >= 7 > MAXLEN, V16GET when FLEN >= 3 > MAXLEN. -/
def Obligations.AccessPastTheBufferFaults : Prop :=
  ∀ s : State, unlatched s → s.maxLen < s.flen.toNat →
    exec .fread s = .fault (.outsideBuffer 0 s.flen.toNat) ∧
    (1 ≤ s.maxLen → exec .fparse s = .fault (.outsideBuffer 1 (s.flen.toNat - 1))) ∧
    (s.maxLen = 0 → exec .fparse s = .fault (.outsideBuffer 0 1)) ∧
    (7 ≤ s.flen.toNat → s.maxLen < 7 → exec .tsget s = .fault (.outsideBuffer 1 6)) ∧
    (3 ≤ s.flen.toNat → s.maxLen < 3 → exec .v16get s = .fault (.outsideBuffer 1 2))

/-- 70_reset_and_hazards.md R126, the spec's own inference ("After reset the frame buffer is empty"): with FLEN = 0, as after reset, FPARSE, TSGET and V16GET answer BadLength and FREAD answers length 0, and only FBUILD, FLOAD, TSPUT and V16PUT end that. -/
def Obligations.EmptyBufferAnswersUntilAFrameIsPut : Prop :=
  State.reset.flen = 0x00#8 ∧
  (∀ s : State, unlatched s → s.flen = 0x00#8 →
    exec .fparse s = .next (answered s 0x04#8 []) ∧
    exec .tsget s = .next (answered s 0x04#8 []) ∧
    exec .v16get s = .next (answered s 0x04#8 []) ∧
    exec .fread s = .next (answered s 0x00#8 [0x00#8])) ∧
  ∀ (i : Instr) (s t : State), s.flen = 0x00#8 → exec i s = .next t → t.flen ≠ 0x00#8 →
    i.mnemonic ∈ [.fbuild, .fload, .tsput, .v16put]

/-! ### The codec functions and laws -/

/-- The three BCD functions: 40_bcd.md R62, R63, and R64, whose formula the spec infers from R62 and 30_encoding.md R44 ("The formula here is the unique inverse of `bcd_dec` on well-formed bytes"). -/
def Obligations.BcdFunctionsAreAsDefined : Prop :=
  (∀ b : Byte, bcdDec b = b.toNat - 6 * (b.toNat >>> 4) ∧ bcdDec b = 10 * (b.toNat / 16) + b.toNat % 16 ∧ bcdDec b ≤ 165) ∧
  (∀ b : Byte, bcdOk b = true ↔ b.toNat / 16 ≤ 9 ∧ b.toNat % 16 ≤ 9) ∧
  ∀ v, v ≤ 99 → (bcdEnc v).toNat = 16 * (v / 10) + v % 10 ∧ bcdOk (bcdEnc v) = true

/-- 40_bcd.md R67, the spec's own inference from R62, R63 and R64 ("For every v in 0 to 99"): encode and decode are inverse on 0 to 99 and on the well-formed bytes, as functions and as operations; a malformed byte encodes back to another byte or not at all. -/
def Obligations.BcdEncodeAndDecodeAreInverse : Prop :=
  (∀ v : Nat, v ≤ 99 → bcdOk (bcdEnc v) = true ∧ bcdDec (bcdEnc v) = v) ∧
  (∀ b : Byte, bcdOk b = true → bcdDec b ≤ 99 ∧ bcdEnc (bcdDec b) = b) ∧
  (∀ (s : State) (v : Byte), unlatched s → v.toNat ≤ 99 → ∃ b t u,
    responds (.bcdenc v) s t [0x00#8, b] ∧ responds (.bcddec b) t u [0x00#8, v]) ∧
  (∀ (s : State) (b : Byte), unlatched s → bcdOk b = true → ∃ v t u,
    responds (.bcddec b) s t [0x00#8, v] ∧ responds (.bcdenc v) t u [0x00#8, b]) ∧
  ∀ (s : State) (b : Byte), unlatched s → bcdOk b = false → ∃ v t u,
    responds (.bcddec b) s t [0x03#8, v] ∧
      ((99 < bcdDec b ∧ responds (.bcdenc v) t u [0x05#8]) ∨
        (bcdDec b ≤ 99 ∧ ∃ b', b' ≠ b ∧ bcdOk b' = true ∧ responds (.bcdenc v) t u [0x00#8, b']))

/-- 41_address.md R72, the spec's own inference from R70 and R71 ("for t, i in 0 to 15"): ADRENC and ADRDEC are inverse, in both directions. -/
def Obligations.AddressEncodeAndDecodeAreInverse : Prop :=
  (∀ (s : State) (t i : Byte), unlatched s → t.toNat ≤ 15 → i.toNat ≤ 15 → ∃ a u w,
    responds (.adrenc t i) s u [0x00#8, a] ∧ responds (.adrdec a) u w [0x00#8, t, i]) ∧
  (∀ (s : State) (a : Byte), unlatched s → ∃ t i u w, t.toNat ≤ 15 ∧ i.toNat ≤ 15 ∧
    responds (.adrdec a) s u [0x00#8, t, i] ∧ responds (.adrenc t i) u w [0x00#8, a])

/-- 42_command.md R77, the spec's own inference from R75 and R76 ("is a bijection between the 2 * 2 * 64 = 256 triples and the 256 bytes"): CMDENC and CMDDEC are inverse, in both directions. -/
def Obligations.CommandEncodeAndDecodeAreInverse : Prop :=
  (∀ (s : State) (dp : Bool) (dir : Direction) (opc : Byte), unlatched s → opc.toNat ≤ 63 → ∃ c t u,
    responds (.cmdenc dp dir opc) s t [0x00#8, c] ∧
      responds (.cmddec c) t u
        [0x00#8, if dp then 0x01#8 else 0x00#8, if dir = .hubToNode then 0x01#8 else 0x00#8, opc]) ∧
  ∀ (s : State) (c : Byte), unlatched s → ∃ (dp : Bool) (dir : Direction) (opc : Byte) (t u : State), opc.toNat ≤ 63 ∧
    responds (.cmddec c) s t
      [0x00#8, if dp then 0x01#8 else 0x00#8, if dir = .hubToNode then 0x01#8 else 0x00#8, opc] ∧
    responds (.cmdenc dp dir opc) t u [0x00#8, c]

/-- 43_frame.md R84, the spec's own inference from R79 to R82 ("For every command byte c and every payload p"): what FBUILD or FLOAD puts in the buffer is what FPARSE and FREAD give back; loading the frame that was read out leaves the same F and FLEN. -/
def Obligations.FramesReadBackAsBuiltOrLoaded : Prop :=
  (∀ (s : State) (c : Byte) (p : List Byte), unlatched s → s.frame.wf = true → p.length + 1 ≤ s.maxLen →
    ∃ t u v w, exec (.fbuild c p) s = .next t ∧
      responds .fparse t u (0x00#8 :: c :: BitVec.ofNat 8 p.length :: p) ∧
      responds .fread t v (0x00#8 :: BitVec.ofNat 8 (p.length + 1) :: c :: p) ∧
      exec (.fload (c :: p)) v = .next w ∧ w.frame = t.frame ∧ w.flen = t.flen) ∧
  ∀ (s : State) (c : Byte) (f : List Byte), unlatched s → s.frame.wf = true → f.length + 1 ≤ s.maxLen →
    ∃ t u v, exec (.fload (c :: f)) s = .next t ∧
      responds .fread t u (0x00#8 :: BitVec.ofNat 8 (f.length + 1) :: c :: f) ∧
      responds .fparse t v (0x00#8 :: c :: BitVec.ofNat 8 f.length :: f)

/-- 44_typed_fields.md R97, the spec's own inference from R85 to R87 ("With the rule of rule R85 this holds in general"): timestamps and values round trip, as functions and through the buffer. -/
def Obligations.TypedFieldsRoundTrip : Prop :=
  (∀ t : Timestamp, encodable t → tsOk (tsEnc t) = true ∧ tsDec (tsEnc t) = t) ∧
  (∀ p : TsPayload, tsOk p = true → tsEnc (tsDec p) = p) ∧
  (∀ v : Half, v.toNat ≤ 9999 → v16Dec (v16Enc v) = v) ∧
  (∀ p : ValuePayload, v16Ok p = true → v16Enc (v16Dec p) = p) ∧
  (∀ (s : State) (c : Byte) (ts : Timestamp), unlatched s → s.frame.wf = true → 7 ≤ s.maxLen → encodable ts →
    ∃ t u w, exec (.tsput c ts) s = .next t ∧
      responds .tsget t u (0x00#8 :: twoBytes ts.year.toNat ++ [ts.month, ts.day, ts.hour, ts.minute]) ∧
      responds .fread t w (0x00#8 :: 0x07#8 :: c :: timestampBytes ts)) ∧
  ∀ (s : State) (c : Byte) (v : Half), unlatched s → s.frame.wf = true → 3 ≤ s.maxLen → v.toNat ≤ 9999 →
    ∃ t u, exec (.v16put c v) s = .next t ∧ responds .v16get t u (0x00#8 :: twoBytes v.toNat)

/-- 00_scope.md R7, R8, 41_address.md R69: the parameters are the model's choice of form (log 11): for every admissible OPC and DEVT, the hub's address is 0xF0, the other classes take 0 to 14, different classes give different addresses, and every code of the vocabulary is packed. -/
def Obligations.VocabularyAndClassesAreEncodable : Prop :=
  ∀ (opc : Config.OpcMap) (devt : Config.DevtMap) (s : State), unlatched s →
    exec (.adrenc ((devt.value .hub).setWidth 8) 0x00#8) s = .next (answered s 0x00#8 [0xF0#8]) ∧
    Config.hubAddress = 0xF0#8 ∧
    (∀ c : DeviceClass, c ≠ .hub → (devt.value c).toNat ≤ 14) ∧
    (∀ (c c' : DeviceClass) (n : Byte) (t t' : State) (a : Byte), n.toNat ≤ 15 →
      responds (.adrenc ((devt.value c).setWidth 8) n) s t [0x00#8, a] →
      responds (.adrenc ((devt.value c').setWidth 8) n) s t' [0x00#8, a] → c = c') ∧
    ∀ (o : OperationName) (dp : Bool) (dir : Direction),
      ∃ (t : State) (b : Byte), responds (.cmdenc dp dir ((opc.code o).setWidth 8)) s t [0x00#8, b] ∧ b &&& 0x3F#8 = (opc.code o).setWidth 8

/-- 30_encoding.md R60, R61: the example lines and the pseudo-instructions assemble to the packets of the operations they name. -/
def Obligations.AssemblerLinesGiveTheirPackets : Prop :=
  assemble "BCDDEC 0x25".toList = some (encode (.bcddec 0x25#8)) ∧
  assemble "CMDENC 1, N2H, 5".toList = some (encode (.cmdenc true .nodeToHub 5#8)) ∧
  assemble "FBUILD 0x85, [0x23, 0x45]".toList = some (encode (.fbuild 0x85#8 [0x23#8, 0x45#8])) ∧
  assemble "TSENC 2023, 6, 15, 14, 30".toList = some (encode (.tsenc ⟨2023#16, 6#8, 15#8, 14#8, 30#8⟩)) ∧
  assemble "V16PUT 0x85, 2345".toList = some (encode (.v16put 0x85#8 2345#16)) ∧
  assemble "LOCALADDR 3, 7".toList = some (encode (.adrenc 3#8 7#8)) ∧
  assemble "ENCADDR 3, 7".toList = some (encode (.adrenc 3#8 7#8)) ∧
  assemble "DECADDR 0x37".toList = some (encode (.adrdec 0x37#8)) ∧
  assemble "HUBADDR".toList = some (encode (.adrenc 15#8 0#8)) ∧
  assemble "BUILDFRAME 4, []".toList = some (encode (.fbuild 4#8 [])) ∧
  assemble "PARSEFRAME".toList = some (encode .fparse) ∧
  assemble "ENCTS 2023, 6, 15, 14, 30".toList = some (encode (.tsenc ⟨2023#16, 6#8, 15#8, 14#8, 30#8⟩)) ∧
  assemble "DECTS [0x20, 0x23, 0x06, 0x15, 0x14, 0x30]".toList =
    some (encode (.tsdec ⟨0x20#8, 0x23#8, 0x06#8, 0x15#8, 0x14#8, 0x30#8⟩)) ∧
  assemble "DEC16 [0x23, 0x45]".toList = some (encode (.v16dec ⟨0x23#8, 0x45#8⟩)) ∧
  assemble ".bytes 0xF0, 0x00 ; an ill-formed STATUS".toList = some [0xF0#8, 0x00#8]

/-! ### The operations, one by one: the packet, the effect with its frame, the refusal under the latch, the other lengths -/

/-- 40_bcd.md R65. -/
def Obligations.BcddecAnswersTheDecimalWorth : Prop :=
  (∀ b : Byte, decode [0x00#8, b] = .ok (.bcddec b)) ∧
  (∀ (s : State) (b : Byte), unlatched s →
    (wellFormedBcd b → exec (.bcddec b) s = .next (answered s 0x00#8 [BitVec.ofNat 8 (worth b)])) ∧
    (¬ wellFormedBcd b → exec (.bcddec b) s = .next (answered s 0x03#8 [BitVec.ofNat 8 (worth b)]))) ∧
  (∀ b : Byte, haltedWhenLatched (.bcddec b)) ∧ onlyWithOperands 0x00#8 1

/-- 40_bcd.md R66. -/
def Obligations.BcdencAnswersTheBcdByte : Prop :=
  (∀ v : Byte, decode [0x01#8, v] = .ok (.bcdenc v)) ∧
  (∀ (s : State) (v : Byte), unlatched s →
    (v.toNat ≤ 99 → exec (.bcdenc v) s = .next (answered s 0x00#8 [bcdByte v.toNat])) ∧
    (99 < v.toNat → exec (.bcdenc v) s = .next (answered s 0x05#8 []))) ∧
  (∀ v : Byte, haltedWhenLatched (.bcdenc v)) ∧ onlyWithOperands 0x01#8 1

/-- 41_address.md R70. -/
def Obligations.AdrencAnswersTheAddress : Prop :=
  (∀ t i : Byte, decode [0x10#8, t, i] = .ok (.adrenc t i)) ∧
  (∀ (s : State) (t i : Byte), unlatched s →
    (t.toNat ≤ 15 ∧ i.toNat ≤ 15 →
      exec (.adrenc t i) s = .next (answered s 0x00#8 [BitVec.ofNat 8 (16 * t.toNat + i.toNat)])) ∧
    (15 < t.toNat ∨ 15 < i.toNat → exec (.adrenc t i) s = .next (configurationFailed s))) ∧
  (∀ t i : Byte, haltedWhenLatched (.adrenc t i)) ∧ onlyWithOperands 0x10#8 2

/-- 41_address.md R71, which the spec infers from 30_encoding.md R45 (decision D24). -/
def Obligations.AdrdecAnswersClassAndInstance : Prop :=
  (∀ a : Byte, decode [0x11#8, a] = .ok (.adrdec a)) ∧
  (∀ (s : State) (a : Byte), unlatched s →
    exec (.adrdec a) s = .next (answered s 0x00#8 [BitVec.ofNat 8 (a.toNat / 16), BitVec.ofNat 8 (a.toNat % 16)])) ∧
  (∀ a : Byte, haltedWhenLatched (.adrdec a)) ∧ onlyWithOperands 0x11#8 1

/-- 42_command.md R75. -/
def Obligations.CmdencAnswersTheCommandByte : Prop :=
  (∀ opc : Byte,
    decode [0x20#8, 0x00#8, 0x00#8, opc] = .ok (.cmdenc false .nodeToHub opc) ∧
    decode [0x20#8, 0x00#8, 0x01#8, opc] = .ok (.cmdenc false .hubToNode opc) ∧
    decode [0x20#8, 0x01#8, 0x00#8, opc] = .ok (.cmdenc true .nodeToHub opc) ∧
    decode [0x20#8, 0x01#8, 0x01#8, opc] = .ok (.cmdenc true .hubToNode opc)) ∧
  (∀ (s : State) (dp dir opc : Byte) (rest : List HostEvent), 1 < dp.toNat ∨ 1 < dir.toNat →
    s.pending = .request [0x20#8, dp, dir, opc] :: rest → unlatched s →
      step s = .next (answered { s with pending := rest } 0x06#8 [])) ∧
  (∀ (s : State) (dp : Bool) (dir : Direction) (opc : Byte), unlatched s →
    (opc.toNat ≤ 63 → exec (.cmdenc dp dir opc) s =
      .next (answered s 0x00#8
        [BitVec.ofNat 8 ((if dp then 128 else 0) + (if dir = .hubToNode then 64 else 0) + opc.toNat)])) ∧
    (63 < opc.toNat → exec (.cmdenc dp dir opc) s = .next (configurationFailed s))) ∧
  (∀ (dp : Bool) (dir : Direction) (opc : Byte), haltedWhenLatched (.cmdenc dp dir opc)) ∧ onlyWithOperands 0x20#8 3

/-- 42_command.md R76. -/
def Obligations.CmddecAnswersTheThreeFields : Prop :=
  (∀ c : Byte, decode [0x21#8, c] = .ok (.cmddec c)) ∧
  (∀ (s : State) (c : Byte), unlatched s →
    exec (.cmddec c) s = .next (answered s 0x00#8
      [BitVec.ofNat 8 (c.toNat / 128), BitVec.ofNat 8 (c.toNat / 64 % 2), BitVec.ofNat 8 (c.toNat % 64)])) ∧
  (∀ c : Byte, haltedWhenLatched (.cmddec c)) ∧ onlyWithOperands 0x21#8 1

/-- 43_frame.md R79. -/
def Obligations.FbuildStoresTheFrame : Prop :=
  (∀ (c n : Byte) (p : List Byte), p.length = n.toNat → decode (0x30#8 :: c :: n :: p) = .ok (.fbuild c p)) ∧
  (∀ (s : State) (c : Byte) (p : List Byte), unlatched s → s.frame.wf = true →
    (p.length + 1 ≤ s.maxLen → ∃ t, exec (.fbuild c p) s = .next t ∧ frameStored s t (c :: p)) ∧
    (s.maxLen < p.length + 1 → exec (.fbuild c p) s = .next (answered s 0x02#8 []))) ∧
  (∀ (c : Byte) (p : List Byte), haltedWhenLatched (.fbuild c p)) ∧
  ∀ (s : State) (args : List Byte) (rest : List HostEvent), s.pending = .request (0x30#8 :: args) :: rest → unlatched s →
    (¬ ∃ (c n : Byte) (p : List Byte), args = c :: n :: p ∧ p.length = n.toNat) →
      step s = .next (answered { s with pending := rest } 0x06#8 [])

/-- 43_frame.md R80. -/
def Obligations.FloadStoresTheFrame : Prop :=
  (∀ (l : Byte) (f : List Byte), f.length = l.toNat → decode (0x31#8 :: l :: f) = .ok (.fload f)) ∧
  (∀ (s : State) (f : List Byte), unlatched s → s.frame.wf = true →
    (1 ≤ f.length ∧ f.length ≤ s.maxLen → ∃ t, exec (.fload f) s = .next t ∧ frameStored s t f) ∧
    (f.length = 0 ∨ s.maxLen < f.length → exec (.fload f) s = .next (answered s 0x04#8 []))) ∧
  (∀ f : List Byte, haltedWhenLatched (.fload f)) ∧
  ∀ (s : State) (args : List Byte) (rest : List HostEvent), s.pending = .request (0x31#8 :: args) :: rest → unlatched s →
    (¬ ∃ (l : Byte) (f : List Byte), args = l :: f ∧ f.length = l.toNat) →
      step s = .next (answered { s with pending := rest } 0x06#8 [])

/-- 43_frame.md R81; FLEN <= MAXLEN is 10_state.md R18. -/
def Obligations.FparseSplitsTheFrame : Prop :=
  decode [0x32#8] = .ok .fparse ∧
  (∀ s : State, unlatched s →
    (s.flen.toNat = 0 → exec .fparse s = .next (answered s 0x04#8 [])) ∧
    (1 ≤ s.flen.toNat ∧ s.flen.toNat ≤ s.maxLen → exec .fparse s =
      .next (answered s 0x00#8 (s.readByte 0 :: BitVec.ofNat 8 (s.flen.toNat - 1) :: bytesAt s 1 (s.flen.toNat - 1))))) ∧
  haltedWhenLatched .fparse ∧ onlyWithOperands 0x32#8 0

/-- 43_frame.md R82; FLEN <= MAXLEN is 10_state.md R18. -/
def Obligations.FreadAnswersTheFrame : Prop :=
  decode [0x33#8] = .ok .fread ∧
  (∀ s : State, unlatched s → s.flen.toNat ≤ s.maxLen →
    exec .fread s = .next (answered s 0x00#8 (s.flen :: bytesAt s 0 s.flen.toNat))) ∧
  haltedWhenLatched .fread ∧ onlyWithOperands 0x33#8 0

/-- 43_frame.md R83. -/
def Obligations.FclrEmptiesTheBuffer : Prop :=
  decode [0x34#8] = .ok .fclr ∧
  (∀ s : State, unlatched s → s.frame.wf = true → ∃ t, exec .fclr s = .next t ∧ frameStored s t []) ∧
  haltedWhenLatched .fclr ∧ onlyWithOperands 0x34#8 0

/-- 44_typed_fields.md R89. -/
def Obligations.TsencAnswersSixBcdBytes : Prop :=
  (∀ yH yL mo d h mi : Byte, ∃ t : Timestamp, decode [0x40#8, yH, yL, mo, d, h, mi] = .ok (.tsenc t) ∧
    t.year.toNat = 256 * yH.toNat + yL.toNat ∧ t.month = mo ∧ t.day = d ∧ t.hour = h ∧ t.minute = mi) ∧
  (∀ (s : State) (t : Timestamp), unlatched s →
    (encodable t → exec (.tsenc t) s = .next (answered s 0x00#8 (timestampBytes t))) ∧
    (¬ encodable t → exec (.tsenc t) s = .next (answered s 0x05#8 []))) ∧
  (∀ t : Timestamp, haltedWhenLatched (.tsenc t)) ∧ onlyWithOperands 0x40#8 6

/-- 44_typed_fields.md R90. -/
def Obligations.TsdecAnswersTheTimestamp : Prop :=
  (∀ p0 p1 p2 p3 p4 p5 : Byte, decode [0x41#8, p0, p1, p2, p3, p4, p5] = .ok (.tsdec ⟨p0, p1, p2, p3, p4, p5⟩)) ∧
  (∀ (s : State) (p : TsPayload), unlatched s →
    (wellFormedTs p → exec (.tsdec p) s = .next (answered s 0x00#8 (timestampResult p))) ∧
    (¬ wellFormedTs p → exec (.tsdec p) s = .next (answered s 0x03#8 (timestampResult p)))) ∧
  (∀ p : TsPayload, haltedWhenLatched (.tsdec p)) ∧ onlyWithOperands 0x41#8 6

/-- 44_typed_fields.md R91. -/
def Obligations.V16encAnswersTwoBcdBytes : Prop :=
  (∀ vH vL : Byte, ∃ v : Half, decode [0x42#8, vH, vL] = .ok (.v16enc v) ∧ v.toNat = 256 * vH.toNat + vL.toNat) ∧
  (∀ (s : State) (v : Half), unlatched s →
    (v.toNat ≤ 9999 → exec (.v16enc v) s = .next (answered s 0x00#8 (valueBytes v))) ∧
    (9999 < v.toNat → exec (.v16enc v) s = .next (answered s 0x05#8 []))) ∧
  (∀ v : Half, haltedWhenLatched (.v16enc v)) ∧ onlyWithOperands 0x42#8 2

/-- 44_typed_fields.md R92. -/
def Obligations.V16decAnswersTheValue : Prop :=
  (∀ p0 p1 : Byte, decode [0x43#8, p0, p1] = .ok (.v16dec ⟨p0, p1⟩)) ∧
  (∀ (s : State) (p : ValuePayload), unlatched s →
    (wellFormedBcd p.high ∧ wellFormedBcd p.low →
      exec (.v16dec p) s = .next (answered s 0x00#8 (twoBytes (worth2 p.high p.low)))) ∧
    (¬ (wellFormedBcd p.high ∧ wellFormedBcd p.low) →
      exec (.v16dec p) s = .next (answered s 0x03#8 (twoBytes (worth2 p.high p.low))))) ∧
  (∀ p : ValuePayload, haltedWhenLatched (.v16dec p)) ∧ onlyWithOperands 0x43#8 2

/-- 44_typed_fields.md R93, which the spec infers from R89 and 43_frame.md R79 (decision D24). -/
def Obligations.TsputStoresATimestampFrame : Prop :=
  (∀ c yH yL mo d h mi : Byte, ∃ t : Timestamp, decode [0x44#8, c, yH, yL, mo, d, h, mi] = .ok (.tsput c t) ∧
    t.year.toNat = 256 * yH.toNat + yL.toNat ∧ t.month = mo ∧ t.day = d ∧ t.hour = h ∧ t.minute = mi) ∧
  (∀ (s : State) (c : Byte) (ts : Timestamp), unlatched s → s.frame.wf = true →
    (7 ≤ s.maxLen ∧ encodable ts → ∃ t, exec (.tsput c ts) s = .next t ∧ frameStored s t (c :: timestampBytes ts)) ∧
    (s.maxLen < 7 → exec (.tsput c ts) s = .next (answered s 0x02#8 [])) ∧
    (7 ≤ s.maxLen ∧ ¬ encodable ts → exec (.tsput c ts) s = .next (answered s 0x05#8 []))) ∧
  (∀ (c : Byte) (ts : Timestamp), haltedWhenLatched (.tsput c ts)) ∧ onlyWithOperands 0x44#8 7

/-- 44_typed_fields.md R94, which the spec infers from R90 and 43_frame.md R81 (decision D24); FLEN <= MAXLEN is 10_state.md R18. -/
def Obligations.TsgetAnswersTheFramesTimestamp : Prop :=
  decode [0x45#8] = .ok .tsget ∧
  (∀ s : State, unlatched s →
    (s.flen.toNat < 7 → exec .tsget s = .next (answered s 0x04#8 [])) ∧
    (7 ≤ s.flen.toNat ∧ s.flen.toNat ≤ s.maxLen →
      (wellFormedTs (tsFieldOf s) → exec .tsget s = .next (answered s 0x00#8 (timestampResult (tsFieldOf s)))) ∧
      (¬ wellFormedTs (tsFieldOf s) → exec .tsget s = .next (answered s 0x03#8 (timestampResult (tsFieldOf s)))))) ∧
  haltedWhenLatched .tsget ∧ onlyWithOperands 0x45#8 0

/-- 44_typed_fields.md R95, which the spec infers from R91 and 43_frame.md R79 (decision D24). -/
def Obligations.V16putStoresAValueFrame : Prop :=
  (∀ c vH vL : Byte, ∃ v : Half, decode [0x46#8, c, vH, vL] = .ok (.v16put c v) ∧ v.toNat = 256 * vH.toNat + vL.toNat) ∧
  (∀ (s : State) (c : Byte) (v : Half), unlatched s → s.frame.wf = true →
    (3 ≤ s.maxLen ∧ v.toNat ≤ 9999 → ∃ t, exec (.v16put c v) s = .next t ∧ frameStored s t (c :: valueBytes v)) ∧
    (s.maxLen < 3 → exec (.v16put c v) s = .next (answered s 0x02#8 [])) ∧
    (3 ≤ s.maxLen ∧ 9999 < v.toNat → exec (.v16put c v) s = .next (answered s 0x05#8 []))) ∧
  (∀ (c : Byte) (v : Half), haltedWhenLatched (.v16put c v)) ∧ onlyWithOperands 0x46#8 3

/-- 44_typed_fields.md R96, which the spec infers from R92 and 43_frame.md R81 (decision D24); FLEN <= MAXLEN is 10_state.md R18. -/
def Obligations.V16getAnswersTheFramesValue : Prop :=
  decode [0x47#8] = .ok .v16get ∧
  (∀ s : State, unlatched s →
    (s.flen.toNat < 3 → exec .v16get s = .next (answered s 0x04#8 [])) ∧
    (3 ≤ s.flen.toNat ∧ s.flen.toNat ≤ s.maxLen →
      (wellFormedBcd (s.readByte 1) ∧ wellFormedBcd (s.readByte 2) →
        exec .v16get s = .next (answered s 0x00#8 (twoBytes (worth2 (s.readByte 1) (s.readByte 2))))) ∧
      (¬ (wellFormedBcd (s.readByte 1) ∧ wellFormedBcd (s.readByte 2)) →
        exec .v16get s = .next (answered s 0x03#8 (twoBytes (worth2 (s.readByte 1) (s.readByte 2))))))) ∧
  haltedWhenLatched .v16get ∧ onlyWithOperands 0x47#8 0

/-- 45_system.md R98: ST with its reserved bits read as 0 (10_state.md R20), never refused with Halted, nothing written; a request with OPSEL 0xF0 and another length is IllegalRequest and leaves ST unchanged. -/
def Obligations.StatusAnswersStAndConfiguration : Prop :=
  decode [0xF0#8] = .ok .status ∧
  (∀ s : State, exec .status s = .next (answeredOnly s 0x00#8 [s.st &&& 0x87#8, s.cfgMaxLen])) ∧
  ∀ (s : State) (args : List Byte) (rest : List HostEvent), s.pending = .request (0xF0#8 :: args) :: rest → args ≠ [] →
    step s = .next (answeredOnly { s with pending := rest } 0x06#8 [])
end

