-- ==== Sys2Proof/Laws/Decode.lean ====
section
/-! SUPPORT. The small lemmas of the decoder's and encoder's parts. -/

namespace Sys2Proof

/-- The two bytes of a packet number are worth 256 times the high one plus the low one. -/
theorem u16_toNat (h l : Byte) : (u16 h l).toNat = 256 * h.toNat + l.toNat := by
  have hh := h.isLt
  have hl := l.isLt
  have e : (u16 h l).toNat = (h.toNat <<< 8) % 2 ^ 16 ||| l.toNat := by
    simp [u16, Nat.mod_eq_of_lt (show h.toNat < 65536 by omega),
      Nat.mod_eq_of_lt (show l.toNat < 65536 by omega)]
  rw [e, Nat.mod_eq_of_lt (by rw [Nat.shiftLeft_eq]; omega),
    ← Nat.shiftLeft_add_eq_or_of_lt (b := l.toNat) hl, Nat.shiftLeft_eq]
  omega

theorem hi8_toNat (v : Half) : (hi8 v).toNat = v.toNat / 256 := by
  have hv := v.isLt
  simp only [hi8, BitVec.toNat_setWidth, BitVec.toNat_ushiftRight, Nat.shiftRight_eq_div_pow]
  omega

theorem lo8_toNat (v : Half) : (lo8 v).toNat = v.toNat % 256 := by
  have e : v.toNat % 256 &&& 255 = v.toNat % 256 % 256 := Nat.and_two_pow_sub_one_eq_mod _ 8
  simp [lo8, e]

@[simp] theorem hi8_u16 (h l : Byte) : hi8 (u16 h l) = h := by
  have hl := l.isLt
  apply BitVec.eq_of_toNat_eq
  rw [hi8_toNat, u16_toNat]
  omega

@[simp] theorem lo8_u16 (h l : Byte) : lo8 (u16 h l) = l := by
  have hl := l.isLt
  apply BitVec.eq_of_toNat_eq
  rw [lo8_toNat, u16_toNat]
  omega

@[simp] theorem u16_hi8_lo8 (v : Half) : u16 (hi8 v) (lo8 v) = v := by
  apply BitVec.eq_of_toNat_eq
  rw [u16_toNat, hi8_toNat, lo8_toNat]
  omega

/-- Every assigned OPSEL selects its own operation. -/
@[simp] theorem mnemonicOf_opsel (m : Mnemonic) : mnemonicOf m.opsel = some m := by
  cases m <;> decide

/-- An OPSEL selects only the operation that has it. -/
theorem opsel_of_mnemonicOf {b : Byte} {m : Mnemonic} (h : mnemonicOf b = some m) : m.opsel = b := by
  simpa using List.find?_some h

@[simp] theorem boolOfByte_byteOfBool (b : Bool) : boolOfByte (byteOfBool b) = some b := by
  cases b <;> decide

@[simp] theorem directionOfByte_byteOfDirection (d : Direction) :
    directionOfByte (byteOfDirection d) = some d := by
  cases d <;> decide

theorem byteOfBool_of_boolOfByte {x : Byte} {b : Bool} (h : boolOfByte x = some b) : byteOfBool b = x := by
  simp only [boolOfByte] at h
  split at h
  · next e => cases h; exact e.symm
  · split at h
    · next e => cases h; exact e.symm
    · cases h

theorem byteOfDirection_of_directionOfByte {x : Byte} {d : Direction} (h : directionOfByte x = some d) :
    byteOfDirection d = x := by
  simp only [directionOfByte] at h
  split at h
  · next e => cases h; exact e.symm
  · split at h
    · next e => cases h; exact e.symm
    · cases h

/-! ### Everything that reading operands can do -/

theorem operands0_ok_iff (f : Instr) (args : List Byte) (i : Instr) :
    operands0 f args = .ok i ↔ args = [] ∧ f = i := by
  rcases args with _ | ⟨a, l⟩ <;> simp [operands0]

theorem operands0_error_iff (f : Instr) (args : List Byte) (e : DecodeError) :
    operands0 f args = .error e ↔ args.length ≠ 0 ∧ .wrongLength = e := by
  rcases args with _ | ⟨a, l⟩ <;> simp [operands0]

theorem operands1_ok_iff (f : Byte → Instr) (args : List Byte) (i : Instr) :
    operands1 f args = .ok i ↔ ∃ x, args = [x] ∧ f x = i := by
  rcases args with _ | ⟨a, _ | ⟨b, l⟩⟩ <;> simp [operands1]

theorem operands1_error_iff (f : Byte → Instr) (args : List Byte) (e : DecodeError) :
    operands1 f args = .error e ↔ args.length ≠ 1 ∧ .wrongLength = e := by
  rcases args with _ | ⟨a, _ | ⟨b, l⟩⟩ <;> simp [operands1]

theorem operands2_ok_iff (f : Byte → Byte → Instr) (args : List Byte) (i : Instr) :
    operands2 f args = .ok i ↔ ∃ x y, args = [x, y] ∧ f x y = i := by
  rcases args with _ | ⟨a, _ | ⟨b, _ | ⟨c, l⟩⟩⟩ <;> simp [operands2]

theorem operands2_error_iff (f : Byte → Byte → Instr) (args : List Byte) (e : DecodeError) :
    operands2 f args = .error e ↔ args.length ≠ 2 ∧ .wrongLength = e := by
  rcases args with _ | ⟨a, _ | ⟨b, _ | ⟨c, l⟩⟩⟩ <;> simp [operands2]

theorem operands6_ok_iff (f : Byte → Byte → Byte → Byte → Byte → Byte → Instr) (args : List Byte) (i : Instr) :
    operands6 f args = .ok i ↔ ∃ x0 x1 x2 x3 x4 x5, args = [x0, x1, x2, x3, x4, x5] ∧ f x0 x1 x2 x3 x4 x5 = i := by
  rcases args with _ | ⟨a, _ | ⟨b, _ | ⟨c, _ | ⟨d, _ | ⟨e, _ | ⟨g, _ | ⟨h, l⟩⟩⟩⟩⟩⟩⟩ <;> simp [operands6]

theorem operands6_error_iff (f : Byte → Byte → Byte → Byte → Byte → Byte → Instr) (args : List Byte) (e : DecodeError) :
    operands6 f args = .error e ↔ args.length ≠ 6 ∧ .wrongLength = e := by
  rcases args with _ | ⟨a, _ | ⟨b, _ | ⟨c, _ | ⟨d, _ | ⟨e, _ | ⟨g, _ | ⟨h, l⟩⟩⟩⟩⟩⟩⟩ <;> simp [operands6]

theorem operands7_ok_iff (f : Byte → Byte → Byte → Byte → Byte → Byte → Byte → Instr) (args : List Byte) (i : Instr) :
    operands7 f args = .ok i ↔ ∃ c x0 x1 x2 x3 x4 x5, args = [c, x0, x1, x2, x3, x4, x5] ∧ f c x0 x1 x2 x3 x4 x5 = i := by
  rcases args with _ | ⟨a, _ | ⟨b, _ | ⟨c, _ | ⟨d, _ | ⟨e, _ | ⟨g, _ | ⟨h, _ | ⟨i, l⟩⟩⟩⟩⟩⟩⟩⟩ <;> simp [operands7]

theorem operands7_error_iff (f : Byte → Byte → Byte → Byte → Byte → Byte → Byte → Instr) (args : List Byte) (e : DecodeError) :
    operands7 f args = .error e ↔ args.length ≠ 7 ∧ .wrongLength = e := by
  rcases args with _ | ⟨a, _ | ⟨b, _ | ⟨c, _ | ⟨d, _ | ⟨e, _ | ⟨g, _ | ⟨h, _ | ⟨i, l⟩⟩⟩⟩⟩⟩⟩⟩ <;> simp [operands7]

theorem operands3_ok_iff (f : Byte → Byte → Byte → Except DecodeError Instr) (args : List Byte) (i : Instr) :
    operands3 f args = .ok i ↔ ∃ x y z, args = [x, y, z] ∧ f x y z = .ok i := by
  rcases args with _ | ⟨a, _ | ⟨b, _ | ⟨c, _ | ⟨d, l⟩⟩⟩⟩ <;> simp [operands3]

theorem operands3_error_iff (f : Byte → Byte → Byte → Except DecodeError Instr) (args : List Byte) (e : DecodeError) :
    operands3 f args = .error e ↔
      (∃ x y z, args = [x, y, z] ∧ f x y z = .error e) ∨ (args.length ≠ 3 ∧ .wrongLength = e) := by
  rcases args with _ | ⟨a, _ | ⟨b, _ | ⟨c, _ | ⟨d, l⟩⟩⟩⟩ <;> simp [operands3]

theorem operandsV_ok_iff (f : List Byte → Instr) (args : List Byte) (i : Instr) :
    operandsV f args = .ok i ↔ ∃ n xs, args = n :: xs ∧ f xs = i := by
  rcases args with _ | ⟨a, l⟩ <;> simp [operandsV]

theorem operandsV_error_iff (f : List Byte → Instr) (args : List Byte) (e : DecodeError) :
    operandsV f args = .error e ↔ args = [] ∧ .wrongLength = e := by
  rcases args with _ | ⟨a, l⟩ <;> simp [operandsV]

theorem operandsCV_ok_iff (f : Byte → List Byte → Instr) (args : List Byte) (i : Instr) :
    operandsCV f args = .ok i ↔ ∃ c n xs, args = c :: n :: xs ∧ f c xs = i := by
  rcases args with _ | ⟨a, _ | ⟨b, l⟩⟩ <;> simp [operandsCV]

theorem operandsCV_error_iff (f : Byte → List Byte → Instr) (args : List Byte) (e : DecodeError) :
    operandsCV f args = .error e ↔ args.length < 2 ∧ .wrongLength = e := by
  rcases args with _ | ⟨a, _ | ⟨b, l⟩⟩ <;> simp [operandsCV]

theorem cmdencOperands_ok_iff (dp dir opc : Byte) (i : Instr) :
    cmdencOperands dp dir opc = .ok i ↔
      ∃ b d, boolOfByte dp = some b ∧ directionOfByte dir = some d ∧ .cmdenc b d opc = i := by
  simp only [cmdencOperands]
  cases boolOfByte dp <;> cases directionOfByte dir <;> simp

theorem cmdencOperands_error_iff (dp dir opc : Byte) (e : DecodeError) :
    cmdencOperands dp dir opc = .error e ↔
      (boolOfByte dp = none ∨ directionOfByte dir = none) ∧ .reservedOperand = e := by
  simp only [cmdencOperands]
  cases boolOfByte dp <;> cases directionOfByte dir <;> simp

end Sys2Proof
end

