-- ==== Sys2Proof/Laws/Memory.lean ====
section
/-! SUPPORT. The laws of the byte space: reads after writes, the canonical form kept by every operation, and equal contents being equal data. -/

namespace Sys2Proof.Machine

/-! ### Reading after writing -/

/-- An address below every listed one reads blank. -/
theorem Memory.read_of_all_gt {m : Memory} {k : Nat} (h : ∀ c ∈ m, k < c.1) :
    m.read k = Config.blankByte := by
  induction m with
  | nil => rfl
  | cons c m ih =>
    have hc := h c (by simp)
    simp only [Memory.read]
    rw [if_neg (by omega)]
    exact ih fun d hd => h d (by simp [hd])

/-- What the canonical form says of a non-empty space. -/
theorem Memory.wf_cons {a : Nat} {v : Byte} {m : Memory} :
    Memory.wf ((a, v) :: m) = true ↔
      (∀ c ∈ m, a < c.1) ∧ v ≠ Config.blankByte ∧ Memory.wf m = true := by
  simp [Memory.wf, and_assoc]

/-- A read after a write to the same address gives the value written. -/
theorem Memory.read_write_same {m : Memory} (hm : m.wf = true) (k : Nat) (v : Byte) :
    (m.write k v).read k = v := by
  induction m with
  | nil =>
    simp only [Memory.write]
    split
    · next h => simp [Memory.read, h]
    · simp [Memory.read]
  | cons c m ih =>
    obtain ⟨a, w⟩ := c
    obtain ⟨hlt, hw, hwf⟩ := Memory.wf_cons.mp hm
    simp only [Memory.write]
    split
    · next hk =>
      split
      · next hv =>
        rw [Memory.read_of_all_gt, hv]
        intro c hc
        rcases List.mem_cons.mp hc with rfl | hc
        · exact hk
        · have := hlt c hc; omega
      · simp [Memory.read]
    · split
      · next hk =>
        subst hk
        split
        · next hv => rw [Memory.read_of_all_gt hlt, hv]
        · simp [Memory.read]
      · next hne => simp [Memory.read, Ne.symm hne, ih hwf]

/-- A write leaves every other address as it was. -/
theorem Memory.read_write_other {m : Memory} {j k : Nat} (h : j ≠ k) (v : Byte) :
    (m.write k v).read j = m.read j := by
  induction m with
  | nil =>
    simp only [Memory.write]
    split
    · rfl
    · simp [Memory.read, Ne.symm h]
  | cons c m ih =>
    obtain ⟨a, w⟩ := c
    simp only [Memory.write]
    split
    · split
      · rfl
      · simp [Memory.read, Ne.symm h]
    · split
      · next hk =>
        subst hk
        split <;> simp [Memory.read, Ne.symm h]
      · simp only [Memory.read, ih]

/-! ### The canonical form -/

/-- Every address of a written space is the one written or was listed before. -/
theorem Memory.mem_write {m : Memory} {k : Nat} {v : Byte} {c : Host.Cell} (h : c ∈ m.write k v) :
    c.1 = k ∨ c ∈ m := by
  induction m with
  | nil =>
    simp only [Memory.write] at h
    split at h
    · simp at h
    · left; simpa using congrArg Prod.fst (List.mem_singleton.mp h)
  | cons d m ih =>
    obtain ⟨a, w⟩ := d
    simp only [Memory.write] at h
    split at h
    · split at h
      · exact .inr h
      · rcases List.mem_cons.mp h with rfl | h
        · exact .inl rfl
        · exact .inr h
    · split at h
      · split at h
        · exact .inr (List.mem_cons_of_mem _ h)
        · rcases List.mem_cons.mp h with rfl | h
          · exact .inl rfl
          · exact .inr (List.mem_cons_of_mem _ h)
      · rcases List.mem_cons.mp h with rfl | h
        · exact .inr (by simp)
        · rcases ih h with h | h
          · exact .inl h
          · exact .inr (List.mem_cons_of_mem _ h)

/-- A write keeps the canonical form. -/
theorem Memory.write_wf {m : Memory} (hm : m.wf = true) (k : Nat) (v : Byte) :
    (m.write k v).wf = true := by
  induction m with
  | nil =>
    simp only [Memory.write]
    split
    · rfl
    · next h => simpa [Memory.wf] using h
  | cons c m ih =>
    obtain ⟨a, w⟩ := c
    obtain ⟨hlt, hw, hwf⟩ := Memory.wf_cons.mp hm
    simp only [Memory.write]
    split
    · next hk =>
      split
      · exact hm
      · next hv =>
        refine Memory.wf_cons.mpr ⟨fun c hc => ?_, hv, hm⟩
        rcases List.mem_cons.mp hc with rfl | hc
        · exact hk
        · exact Nat.lt_trans hk (hlt c hc)
    · split
      · next hk =>
        subst hk
        split
        · exact hwf
        · next hv => exact Memory.wf_cons.mpr ⟨hlt, hv, hwf⟩
      · refine Memory.wf_cons.mpr ⟨fun c hc => ?_, hw, ih hwf⟩
        rcases Memory.mem_write hc with h | h
        · omega
        · exact hlt c h

/-- Writing a sequence of bytes keeps the canonical form. -/
theorem Memory.writeN_wf {m : Memory} (hm : m.wf = true) (a : Nat) (vs : List Byte) :
    (m.writeN a vs).wf = true := by
  induction vs generalizing m a with
  | nil => exact hm
  | cons v vs ih => exact ih (Memory.write_wf hm a v) (a + 1)

/-! ### Sequences of bytes -/

/-- An address below or past the bytes written keeps its byte. -/
theorem Memory.read_writeN_outside {m : Memory} {a k : Nat} {vs : List Byte}
    (h : k < a ∨ a + vs.length ≤ k) : (m.writeN a vs).read k = m.read k := by
  induction vs generalizing m a with
  | nil => rfl
  | cons v vs ih =>
    simp only [List.length_cons] at h
    rw [Memory.writeN, ih (by omega), Memory.read_write_other (by omega)]

/-- The bytes written are read back. -/
theorem Memory.read_writeN_inside {m : Memory} (hm : m.wf = true) {a k : Nat} {vs : List Byte}
    (h : a ≤ k) (hk : k < a + vs.length) :
    (m.writeN a vs).read k = vs.getD (k - a) Config.blankByte := by
  induction vs generalizing m a with
  | nil => simp only [List.length_nil] at hk; omega
  | cons v vs ih =>
    simp only [List.length_cons] at hk
    rw [Memory.writeN]
    rcases Nat.eq_or_lt_of_le h with rfl | hlt
    · rw [Memory.read_writeN_outside (by omega), Memory.read_write_same hm]
      simp
    · rw [ih (Memory.write_wf hm a v) (by omega) (by omega)]
      rw [show k - a = (k - (a + 1)) + 1 by omega, List.getD_cons_succ]

@[simp] theorem Memory.readN_length (m : Memory) (a n : Nat) : (m.readN a n).length = n := by
  induction n generalizing a with
  | zero => rfl
  | succ n ih => simp [Memory.readN, ih]

/-- The i-th byte read is the byte at that address. -/
theorem Memory.readN_getD (m : Memory) (a n i : Nat) (h : i < n) :
    (m.readN a n).getD i Config.blankByte = m.read (a + i) := by
  induction n generalizing a i with
  | zero => omega
  | succ n ih =>
    cases i with
    | zero => simp [Memory.readN]
    | succ i =>
      rw [Memory.readN, List.getD_cons_succ, ih (a + 1) i (by omega), show a + 1 + i = a + (i + 1) by omega]

/-- Spaces that read alike where one reads give the same bytes. -/
theorem Memory.readN_congr {m m' : Memory} {a n : Nat}
    (h : ∀ k, a ≤ k → k < a + n → m.read k = m'.read k) : m.readN a n = m'.readN a n := by
  induction n generalizing a with
  | zero => rfl
  | succ n ih =>
    simp only [Memory.readN]
    rw [h a (by omega) (by omega), ih fun k h1 h2 => h k (by omega) (by omega)]

/-- Reading back a sequence just written gives it. -/
theorem Memory.readN_writeN_same {m : Memory} (hm : m.wf = true) (a : Nat) (vs : List Byte) :
    (m.writeN a vs).readN a vs.length = vs := by
  apply List.ext_getElem (by simp)
  intro i h1 h2
  have e := Memory.readN_getD (m.writeN a vs) a vs.length i h2
  rw [Memory.read_writeN_inside hm (by omega) (by omega)] at e
  simpa [List.getD_eq_getElem?_getD, h1, h2] using e

/-! ### Equal contents are equal data -/

/-- Two canonical spaces that read alike at every address are the same list. -/
theorem Memory.eq_of_read_eq {m m' : Memory} (hm : m.wf = true) (hm' : m'.wf = true)
    (h : ∀ k, m.read k = m'.read k) : m = m' := by
  induction m generalizing m' with
  | nil =>
    cases m' with
    | nil => rfl
    | cons c m' =>
      obtain ⟨a, v⟩ := c
      obtain ⟨-, hv, -⟩ := Memory.wf_cons.mp hm'
      have := h a
      simp only [Memory.read, if_true] at this
      exact absurd this.symm hv
  | cons c m ih =>
    obtain ⟨a, v⟩ := c
    obtain ⟨hlt, hv, hwf⟩ := Memory.wf_cons.mp hm
    cases m' with
    | nil =>
      have := h a
      simp only [Memory.read, if_true] at this
      exact absurd this hv
    | cons c' m' =>
      obtain ⟨b, w⟩ := c'
      obtain ⟨hlt', hw, hwf'⟩ := Memory.wf_cons.mp hm'
      have hab : a = b := by
        rcases Nat.lt_trichotomy a b with hl | he | hg
        · have e := h a
          rw [Memory.read_of_all_gt (m := (b, w) :: m') (k := a)] at e
          · simp only [Memory.read, if_true] at e; exact absurd e hv
          · intro c hc
            rcases List.mem_cons.mp hc with rfl | hc
            · exact hl
            · exact Nat.lt_trans hl (hlt' c hc)
        · exact he
        · have e := h b
          rw [Memory.read_of_all_gt (m := (a, v) :: m) (k := b)] at e
          · simp only [Memory.read, if_true] at e; exact absurd e.symm hw
          · intro c hc
            rcases List.mem_cons.mp hc with rfl | hc
            · exact hg
            · exact Nat.lt_trans hg (hlt c hc)
      subst hab
      have hvw : v = w := by simpa [Memory.read] using h a
      subst hvw
      have : m = m' := by
        apply ih hwf hwf'
        intro k
        rcases Nat.lt_or_ge a k with hk | hk
        · have e := h k
          simpa [Memory.read, Nat.ne_of_lt hk] using e
        · rw [Memory.read_of_all_gt fun c hc => Nat.lt_of_le_of_lt hk (hlt c hc),
            Memory.read_of_all_gt fun c hc => Nat.lt_of_le_of_lt hk (hlt' c hc)]
      rw [this]

end Sys2Proof.Machine
end

