-- ==== Sys2Proof/Laws/State.lean ====
section
/-! SUPPORT. One lemma per field per update of State, so that no proof unfolds a record update. -/

namespace Sys2Proof.Machine

variable (s : State)

/-! ### `setErr` -/

@[simp] theorem State.setErr_frame (st : Status) : (s.setErr st).frame = s.frame := rfl
@[simp] theorem State.setErr_flen (st : Status) : (s.setErr st).flen = s.flen := rfl
@[simp] theorem State.setErr_st (st : Status) : (s.setErr st).st = (s.st &&& 0xF8#8) ||| st.code := rfl
@[simp] theorem State.setErr_cfgMaxLen (st : Status) : (s.setErr st).cfgMaxLen = s.cfgMaxLen := rfl
@[simp] theorem State.setErr_pending (st : Status) : (s.setErr st).pending = s.pending := rfl
@[simp] theorem State.setErr_responses (st : Status) : (s.setErr st).responses = s.responses := rfl

/-! ### `setFatal` -/

@[simp] theorem State.setFatal_frame : s.setFatal.frame = s.frame := rfl
@[simp] theorem State.setFatal_flen : s.setFatal.flen = s.flen := rfl
@[simp] theorem State.setFatal_st : s.setFatal.st = s.st ||| 0x80#8 := rfl
@[simp] theorem State.setFatal_cfgMaxLen : s.setFatal.cfgMaxLen = s.cfgMaxLen := rfl
@[simp] theorem State.setFatal_pending : s.setFatal.pending = s.pending := rfl
@[simp] theorem State.setFatal_responses : s.setFatal.responses = s.responses := rfl

/-! ### `emit` -/

@[simp] theorem State.emit_frame (p : List Byte) : (s.emit p).frame = s.frame := rfl
@[simp] theorem State.emit_flen (p : List Byte) : (s.emit p).flen = s.flen := rfl
@[simp] theorem State.emit_st (p : List Byte) : (s.emit p).st = s.st := rfl
@[simp] theorem State.emit_cfgMaxLen (p : List Byte) : (s.emit p).cfgMaxLen = s.cfgMaxLen := rfl
@[simp] theorem State.emit_pending (p : List Byte) : (s.emit p).pending = s.pending := rfl
@[simp] theorem State.emit_responses (p : List Byte) : (s.emit p).responses = s.responses ++ [p] := rfl

/-! ### `applyReset` -/

@[simp] theorem State.applyReset_frame : s.applyReset.frame = [] := rfl
@[simp] theorem State.applyReset_flen : s.applyReset.flen = 0x00#8 := rfl
@[simp] theorem State.applyReset_st : s.applyReset.st = 0x00#8 := rfl
@[simp] theorem State.applyReset_cfgMaxLen : s.applyReset.cfgMaxLen = s.cfgMaxLen := rfl
@[simp] theorem State.applyReset_pending : s.applyReset.pending = s.pending := rfl
@[simp] theorem State.applyReset_responses : s.applyReset.responses = s.responses := rfl

/-! ### `present` and `withEvents` -/

@[simp] theorem State.present_frame (p : List Byte) : (s.present p).frame = s.frame := rfl
@[simp] theorem State.present_flen (p : List Byte) : (s.present p).flen = s.flen := rfl
@[simp] theorem State.present_st (p : List Byte) : (s.present p).st = s.st := rfl
@[simp] theorem State.present_cfgMaxLen (p : List Byte) : (s.present p).cfgMaxLen = s.cfgMaxLen := rfl
@[simp] theorem State.present_pending (p : List Byte) : (s.present p).pending = .request p :: s.pending := rfl
@[simp] theorem State.present_responses (p : List Byte) : (s.present p).responses = s.responses := rfl

@[simp] theorem State.withEvents_frame (es : List HostEvent) : (s.withEvents es).frame = s.frame := rfl
@[simp] theorem State.withEvents_flen (es : List HostEvent) : (s.withEvents es).flen = s.flen := rfl
@[simp] theorem State.withEvents_st (es : List HostEvent) : (s.withEvents es).st = s.st := rfl
@[simp] theorem State.withEvents_cfgMaxLen (es : List HostEvent) : (s.withEvents es).cfgMaxLen = s.cfgMaxLen := rfl
@[simp] theorem State.withEvents_pending (es : List HostEvent) : (s.withEvents es).pending = es := rfl
@[simp] theorem State.withEvents_responses (es : List HostEvent) : (s.withEvents es).responses = s.responses := rfl

/-! ### `State.reset` -/

@[simp] theorem State.reset_frame : State.reset.frame = [] := rfl
@[simp] theorem State.reset_flen : State.reset.flen = 0x00#8 := rfl
@[simp] theorem State.reset_st : State.reset.st = 0x00#8 := rfl
@[simp] theorem State.reset_cfgMaxLen : State.reset.cfgMaxLen = 0x0A#8 := rfl
@[simp] theorem State.reset_pending : State.reset.pending = [] := rfl
@[simp] theorem State.reset_responses : State.reset.responses = [] := rfl

/-! ### A field update does not change what an accessor of another field reads -/

@[simp] theorem State.emit_fatal (p : List Byte) : (s.emit p).fatal = s.fatal := rfl
@[simp] theorem State.emit_maxLen (p : List Byte) : (s.emit p).maxLen = s.maxLen := rfl
@[simp] theorem State.emit_readByte (p : List Byte) (k : Nat) : (s.emit p).readByte k = s.readByte k := rfl
@[simp] theorem State.setErr_maxLen (st : Status) : (s.setErr st).maxLen = s.maxLen := rfl
@[simp] theorem State.setErr_readByte (st : Status) (k : Nat) : (s.setErr st).readByte k = s.readByte k := rfl
@[simp] theorem State.setFatal_maxLen : s.setFatal.maxLen = s.maxLen := rfl
@[simp] theorem State.setFatal_readByte (k : Nat) : s.setFatal.readByte k = s.readByte k := rfl

end Sys2Proof.Machine
end

