-- ==== Sys2Proof/Laws/Ops.lean ====
section
/-! SUPPORT. One lemma per shared operation that says once everything it can do; provers cite these instead of unfolding. -/

namespace Sys2Proof.Machine

/-! ### Status codes -/

/-- Different statuses have different codes. -/
theorem Status.code_injective : Function.Injective Status.code := by
  intro a b h; revert h; cases a <;> cases b <;> decide

/-- After ST.ERR is written, FATAL is as it was. -/
@[simp] theorem State.setErr_fatal (s : State) (st : Status) : (s.setErr st).fatal = s.fatal := by
  cases st <;> simp [State.fatal, State.setErr, Status.code]

/-- After ST.FATAL is set it is 1. -/
@[simp] theorem State.setFatal_fatal (s : State) : s.setFatal.fatal = true := by
  simp [State.fatal, State.setFatal]

/-- After ST.ERR is written it holds the code. -/
@[simp] theorem State.setErr_err (s : State) (st : Status) :
    (s.setErr st).err = st.code.setWidth 3 := by
  have h : ((s.st &&& 0xF8#8).setWidth 3 : BitVec 3) = 0#3 := by
    ext i hi
    have : i = 0 ∨ i = 1 ∨ i = 2 := by omega
    rcases this with rfl | rfl | rfl <;> simp
  simp only [State.err, State.setErr_st, BitVec.setWidth_or, h, BitVec.zero_or]

/-! ### Memory access -/

/-- Everything a MemRead can do. -/
theorem State.memRead_eq_some {s : State} {a n : Nat} {bs : List Byte} :
    s.memRead a n = some bs ↔ a + n ≤ s.maxLen ∧ bs = s.frame.readN a n := by
  simp only [State.memRead]
  split
  · next h => simp [h, eq_comm]
  · next h => simp [h]

/-- Everything a MemWrite can do. -/
theorem State.memWrite_eq_some {s t : State} {a : Nat} {vs : List Byte} :
    s.memWrite a vs = some t ↔
      a + vs.length ≤ s.maxLen ∧ t = { s with frame := s.frame.writeN a vs } := by
  simp only [State.memWrite]
  split
  · next h => simp [h, eq_comm]
  · next h => simp [h]

/-- The padded frame has MAXLEN bytes when the frame fits. -/
theorem padFrame_length {n : Nat} {f : List Byte} (h : f.length ≤ n) : (padFrame n f).length = n := by
  simp [padFrame]; omega

/-- The padded frame holds the frame, then zeros. -/
theorem padFrame_getD (n : Nat) (f : List Byte) (k : Nat) :
    (padFrame n f).getD k Config.blankByte = f.getD k Config.blankByte := by
  simp only [padFrame, List.getD_eq_getElem?_getD]
  rcases Nat.lt_or_ge k f.length with h | h
  · rw [List.getElem?_append_left h]
  · rw [List.getElem?_append_right h, List.getElem?_eq_none h, List.getElem?_replicate]
    split <;> rfl

/-- Everything that putting a frame in the buffer can do. -/
theorem State.storeFrame_eq_some {s t : State} {f : List Byte} :
    s.storeFrame f = some t ↔
      f.length ≤ s.maxLen ∧
        t = { s with frame := s.frame.writeN 0 (padFrame s.maxLen f), flen := BitVec.ofNat 8 f.length } := by
  simp only [State.storeFrame, Option.map_eq_some_iff, State.memWrite_eq_some]
  constructor
  · rintro ⟨u, ⟨h, rfl⟩, rfl⟩
    refine ⟨?_, rfl⟩
    simp [padFrame] at h
    omega
  · rintro ⟨h, rfl⟩
    exact ⟨_, ⟨by simp [padFrame_length h], rfl⟩, rfl⟩

/-! ### Responses and errors -/

/-- A response is one next state. -/
theorem State.respond_eq (s : State) (st : Status) (rs : List Byte) :
    s.respond st rs = .next { s with st := (s.st &&& 0xF8#8) ||| st.code, responses := s.responses ++ [st.code :: rs] } := rfl

/-- An error other than ConfigurationError is a response with no results. -/
theorem State.raise_eq (s : State) {e : Status} (h : e ≠ .configurationError) :
    s.raise e = s.respond e [] := by
  simp only [State.raise, State.respond, if_neg h]

/-- A ConfigurationError sets the latch as well. -/
theorem State.raise_configurationError (s : State) :
    s.raise .configurationError = s.setFatal.respond .configurationError [] := rfl

/-- An answer that writes no state is one next state. -/
theorem State.respondOnly_eq (s : State) (st : Status) (rs : List Byte) :
    s.respondOnly st rs = .next { s with responses := s.responses ++ [st.code :: rs] } := rfl

/-- Under the fatal latch an operation is refused. -/
theorem State.unlessHalted_of_fatal {s : State} (h : s.fatal = true) (op : State → Result) :
    s.unlessHalted op = s.respondOnly .halted [] := by
  simp [State.unlessHalted, h]

/-- Without the fatal latch an operation goes on. -/
theorem State.unlessHalted_of_not_fatal {s : State} (h : s.fatal = false) (op : State → Result) :
    s.unlessHalted op = op s := by
  simp [State.unlessHalted, h]

/-- A frame that fits is put in the buffer and answered OK. -/
theorem State.replaceFrame_eq {s : State} {f : List Byte} (h : f.length ≤ s.maxLen) :
    s.replaceFrame f =
      .next { s with
        frame := s.frame.writeN 0 (padFrame s.maxLen f), flen := BitVec.ofNat 8 f.length,
        st := s.st &&& 0xF8#8, responses := s.responses ++ [[0x00#8]] } := by
  have e := State.storeFrame_eq_some.mpr ⟨h, rfl⟩
  simp [State.replaceFrame, e, State.respond_eq, Status.code]

/-- A frame that does not fit is a fault. -/
theorem State.replaceFrame_fault {s : State} {f : List Byte} (h : s.maxLen < f.length) :
    s.replaceFrame f = .fault (.outsideBuffer 0 f.length) := by
  have e : s.storeFrame f = none := by
    rw [Option.eq_none_iff_forall_ne_some]
    intro t ht
    have := (State.storeFrame_eq_some.mp ht).1
    omega
  simp [State.replaceFrame, e]

/-- A read inside the buffer goes on with the bytes. -/
theorem State.withBytes_eq {s : State} {a n : Nat} (h : a + n ≤ s.maxLen) (k : List Byte → Result) :
    s.withBytes a n k = k (s.frame.readN a n) := by
  simp [State.withBytes, State.memRead, h]

/-- A read past the end of the buffer is a fault. -/
theorem State.withBytes_fault {s : State} {a n : Nat} (h : ¬ a + n ≤ s.maxLen) (k : List Byte → Result) :
    s.withBytes a n k = .fault (.outsideBuffer a n) := by
  simp [State.withBytes, State.memRead, h]

/-- What the buffer holds once a frame that fits is put there: the frame, zeros up to MAXLEN, and past MAXLEN what it held. -/
theorem Memory.read_storeFrame {m : Memory} (hm : m.wf = true) {n : Nat} {f : List Byte}
    (h : f.length ≤ n) (k : Nat) :
    (m.writeN 0 (padFrame n f)).read k = if k < n then f.getD k Config.blankByte else m.read k := by
  split
  · next hk =>
    rw [Memory.read_writeN_inside hm (Nat.zero_le k) (by rw [padFrame_length h]; omega), padFrame_getD]
    rfl
  · next hk =>
    rw [Memory.read_writeN_outside (.inr (by rw [padFrame_length h]; omega))]

/-! ### Serving events -/

/-- With nothing presented the block waits. -/
theorem step_idle {s : State} (h : s.pending = []) : step s = .next s := by
  simp [step, serveNext, h]

/-- With an event presented the step serves it. -/
theorem step_event {s : State} {e : HostEvent} {rest : List HostEvent} (h : s.pending = e :: rest) :
    step s = serveEvent e { s with pending := rest } := by
  simp [step, serveNext, h]

/-- A run of no steps stays. -/
theorem run_zero (s : State) : Host.Core.run Sys2Proof.core 0 s = .next s := by rfl

/-- A run's first step, when it answers a next state. -/
theorem run_succ {n : Nat} {s t : State} (h : step s = .next t) :
    Host.Core.run Sys2Proof.core (n + 1) s = Host.Core.run Sys2Proof.core n t := by
  have h' : Sys2Proof.core.step s = .next t := h
  simp only [Host.Core.run, h']

/-- A packet that decodes is served by its instruction. -/
theorem serveRequest_ok {packet : List Byte} {i : Instr} (h : decode packet = .ok i) (s : State) :
    serveRequest packet s = exec i s := by
  simp [serveRequest, h]

/-- A packet that does not decode, and is not empty, is rejected. -/
theorem serveRequest_error {packet : List Byte} {e : DecodeError} (h : decode packet = .error e)
    (he : e ≠ .emptyPacket) (s : State) : serveRequest packet s = s.rejectRequest packet := by
  cases e <;> simp_all [serveRequest]

end Sys2Proof.Machine
end

