-- ==== Sys2Proof/Laws/Exec.lean ====
section
/-! SUPPORT. Once for all operations: everything exec can do when it answers a next state, and when it stops. -/

namespace Sys2Proof.Machine

/-- The operations that write the buffer when they succeed (10_state.md R28). -/
def bufferWriters : List Mnemonic := [.fbuild, .fload, .fclr, .tsput, .v16put]

/-- The operations that can end with ConfigurationError (60_exceptions.md R101). -/
def constantEncoders : List Mnemonic := [.adrenc, .cmdenc]

/-- The operations that read the buffer (10_state.md R28). -/
def bufferReaders : List Mnemonic := [.fparse, .fread, .tsget, .v16get]

/-- The state after a frame is put in the buffer and answered OK. -/
def State.framed (s : State) (f : List Byte) : State :=
  { s with
    frame := s.frame.writeN 0 (padFrame s.maxLen f), flen := BitVec.ofNat 8 f.length,
    st := s.st &&& 0xF8#8, responses := s.responses ++ [[0x00#8]] }

/-- What an operation that is not refused can do: respond, with results only under OK or MalformedBcd; fail for a constant; put a frame in the buffer. -/
inductive Effect (m : Mnemonic) (s t : State) : Prop where
  | responded (st : Status) (rs : List Byte) (hst : st ≠ .configurationError ∧ st ≠ .illegalRequest ∧ st ≠ .halted)
      (hrs : st = .malformedBcd → rs ≠ []) (hnil : st ≠ .ok → st ≠ .malformedBcd → rs = [])
      (ht : t = (s.setErr st).emit (st.code :: rs))
  | constantRefused (hm : m ∈ constantEncoders)
      (ht : t = (s.setFatal.setErr .configurationError).emit [Status.code .configurationError])
  | stored (hm : m ∈ bufferWriters) (f : List Byte) (hf : f.length ≤ s.maxLen) (ht : t = s.framed f)

theorem Effect.of_respond {m : Mnemonic} {s t : State} {st : Status} {rs : List Byte}
    (hst : st ≠ .configurationError ∧ st ≠ .illegalRequest ∧ st ≠ .halted)
    (hrs : st = .malformedBcd → rs ≠ []) (hnil : st ≠ .ok → st ≠ .malformedBcd → rs = [])
    (h : s.respond st rs = .next t) : Effect m s t := by
  cases h; exact .responded st rs hst hrs hnil rfl

theorem Effect.of_raise {m : Mnemonic} {s t : State} {e : Status}
    (he : e = .payloadTooLarge ∨ e = .badLength ∨ e = .rangeError) (h : s.raise e = .next t) : Effect m s t := by
  rcases he with rfl | rfl | rfl <;>
    exact .of_respond (by decide) (by decide) (fun _ _ => rfl) ((State.raise_eq s (by decide)).symm.trans h)

theorem Effect.of_configurationError {m : Mnemonic} {s t : State} (hm : m ∈ constantEncoders)
    (h : s.raise .configurationError = .next t) : Effect m s t := by
  cases h; exact .constantRefused hm rfl

theorem Effect.of_replaceFrame {m : Mnemonic} {s t : State} {f : List Byte} (hm : m ∈ bufferWriters)
    (h : s.replaceFrame f = .next t) : Effect m s t := by
  rcases Nat.lt_or_ge s.maxLen f.length with hl | hl
  · rw [State.replaceFrame_fault hl] at h; cases h
  · rw [State.replaceFrame_eq hl] at h; cases h; exact .stored hm f hl rfl

theorem Effect.of_withBytes {m : Mnemonic} {s t : State} {a n : Nat} {k : List Byte → Result}
    (hk : ∀ bs, k bs = .next t → Effect m s t) (h : s.withBytes a n k = .next t) : Effect m s t := by
  by_cases hl : a + n ≤ s.maxLen
  · rw [State.withBytes_eq hl] at h; exact hk _ h
  · rw [State.withBytes_fault hl] at h; cases h

theorem Effect.of_bcdStatus {m : Mnemonic} {s t : State} {b : Bool} {r : Byte} {rs : List Byte}
    (h : s.respond (bcdStatus b) (r :: rs) = .next t) : Effect m s t := by
  cases b
  · exact .of_respond (st := .malformedBcd) (by decide) (fun _ => by simp) (fun _ h => absurd rfl h) h
  · exact .of_respond (st := .ok) (by decide) (fun h => by cases h) (fun h => absurd rfl h) h

theorem Effect.of_ok {m : Mnemonic} {s t : State} {rs : List Byte} (h : s.respond .ok rs = .next t) :
    Effect m s t :=
  .of_respond (by decide) (fun h => by cases h) (fun h => absurd rfl h) h

/-- Everything an operation can do when it answers a next state: STATUS gives its response and writes nothing; under the fatal latch the others are refused; else one of the three effects. -/
theorem exec_next_cases {i : Instr} {s t : State} (h : exec i s = .next t) :
    (i = .status ∧ t = s.emit [Status.code .ok, s.readSt, s.cfgMaxLen]) ∨
    (i ≠ .status ∧ s.fatal = true ∧ t = s.emit [Status.code .halted]) ∨
    (i ≠ .status ∧ s.fatal = false ∧ Effect i.mnemonic s t) := by
  by_cases hi : i = .status
  · subst hi; cases h; exact .inl ⟨rfl, rfl⟩
  · refine .inr ?_
    have key : ∀ op : State → Result, s.unlessHalted op = .next t →
        (op s = .next t → Effect i.mnemonic s t) →
        (i ≠ .status ∧ s.fatal = true ∧ t = s.emit [Status.code .halted]) ∨
          (i ≠ .status ∧ s.fatal = false ∧ Effect i.mnemonic s t) := by
      intro op he hop
      cases hf : s.fatal
      · rw [State.unlessHalted_of_not_fatal hf] at he
        exact .inr ⟨hi, rfl, hop he⟩
      · rw [State.unlessHalted_of_fatal hf, State.respondOnly] at he
        injection he with he
        exact .inl ⟨hi, rfl, he.symm⟩
    cases i with
    | bcddec b =>
      simp only [exec, execBcddec] at h
      exact key _ h fun h => .of_bcdStatus h
    | bcdenc v =>
      simp only [exec, execBcdenc] at h
      refine key _ h fun h => ?_
      split at h
      · exact .of_ok h
      · exact .of_raise (.inr (.inr rfl)) h
    | adrenc t i =>
      simp only [exec, execAdrenc] at h
      refine key _ h fun h => ?_
      split at h
      · exact .of_ok h
      · exact .of_configurationError (by simp [constantEncoders, Instr.mnemonic]) h
    | adrdec a =>
      simp only [exec, execAdrdec] at h
      exact key _ h fun h => .of_ok h
    | cmdenc dp dir opc =>
      simp only [exec, execCmdenc] at h
      refine key _ h fun h => ?_
      split at h
      · exact .of_ok h
      · exact .of_configurationError (by simp [constantEncoders, Instr.mnemonic]) h
    | cmddec c =>
      simp only [exec, execCmddec] at h
      exact key _ h fun h => .of_ok h
    | fbuild c p =>
      simp only [exec, execFbuild] at h
      refine key _ h fun h => ?_
      split at h
      · exact .of_raise (.inl rfl) h
      · exact .of_replaceFrame (by simp [bufferWriters, Instr.mnemonic]) h
    | fload f =>
      simp only [exec, execFload] at h
      refine key _ h fun h => ?_
      split at h
      · exact .of_raise (.inr (.inl rfl)) h
      · exact .of_replaceFrame (by simp [bufferWriters, Instr.mnemonic]) h
    | fparse =>
      simp only [exec, execFparse] at h
      refine key _ h fun h => ?_
      split at h
      · exact .of_raise (.inr (.inl rfl)) h
      · exact .of_withBytes (fun _ h => .of_withBytes (fun _ h => .of_ok h) h) h
    | fread =>
      simp only [exec, execFread] at h
      exact key _ h fun h => .of_withBytes (fun _ h => .of_ok h) h
    | fclr =>
      simp only [exec, execFclr] at h
      exact key _ h fun h => .of_replaceFrame (by simp [bufferWriters, Instr.mnemonic]) h
    | tsenc t =>
      simp only [exec, execTsenc] at h
      refine key _ h fun h => ?_
      split at h
      · exact .of_ok h
      · exact .of_raise (.inr (.inr rfl)) h
    | tsdec p =>
      simp only [exec, execTsdec] at h
      exact key _ h fun h => .of_bcdStatus h
    | v16enc v =>
      simp only [exec, execV16enc] at h
      refine key _ h fun h => ?_
      split at h
      · exact .of_ok h
      · exact .of_raise (.inr (.inr rfl)) h
    | v16dec p =>
      simp only [exec, execV16dec] at h
      exact key _ h fun h => .of_bcdStatus h
    | tsput c t =>
      simp only [exec, execTsput] at h
      refine key _ h fun h => ?_
      split at h
      · exact .of_raise (.inl rfl) h
      · split at h
        · exact .of_replaceFrame (by simp [bufferWriters, Instr.mnemonic]) h
        · exact .of_raise (.inr (.inr rfl)) h
    | tsget =>
      simp only [exec, execTsget] at h
      refine key _ h fun h => ?_
      split at h
      · exact .of_raise (.inr (.inl rfl)) h
      · exact .of_withBytes (fun _ h => .of_bcdStatus h) h
    | v16put c v =>
      simp only [exec, execV16put] at h
      refine key _ h fun h => ?_
      split at h
      · exact .of_raise (.inl rfl) h
      · split at h
        · exact .of_replaceFrame (by simp [bufferWriters, Instr.mnemonic]) h
        · exact .of_raise (.inr (.inr rfl)) h
    | v16get =>
      simp only [exec, execV16get] at h
      refine key _ h fun h => ?_
      split at h
      · exact .of_raise (.inr (.inl rfl)) h
      · exact .of_withBytes (fun _ h => .of_bcdStatus h) h
    | status => exact absurd rfl hi

/-! ### Each operation without the fatal latch, and all of them under it -/

variable {s : State}

theorem execBcddec_of_not_fatal (h : s.fatal = false) (b : Byte) :
    exec (.bcddec b) s =
      s.respond (bcdStatus (bcdOk b)) [bcdDecByte b] := by
  simp only [exec, execBcddec]; exact State.unlessHalted_of_not_fatal h _

theorem execBcdenc_of_not_fatal (h : s.fatal = false) (v : Byte) :
    exec (.bcdenc v) s =
      if decimalOk v then s.respond .ok [bcdEnc v.toNat] else s.raise .rangeError := by
  simp only [exec, execBcdenc]; exact State.unlessHalted_of_not_fatal h _

theorem execAdrenc_of_not_fatal (h : s.fatal = false) (t i : Byte) :
    exec (.adrenc t i) s =
      if nibbleOk t && nibbleOk i then s.respond .ok [packAddress t i] else s.raise .configurationError := by
  simp only [exec, execAdrenc]; exact State.unlessHalted_of_not_fatal h _

theorem execAdrdec_of_not_fatal (h : s.fatal = false) (a : Byte) :
    exec (.adrdec a) s =
      s.respond .ok [addressClass a, addressInstance a] := by
  simp only [exec, execAdrdec]; exact State.unlessHalted_of_not_fatal h _

theorem execCmdenc_of_not_fatal (h : s.fatal = false) (dp : Bool) (dir : Direction) (opc : Byte) :
    exec (.cmdenc dp dir opc) s =
      if sixBitOk opc then s.respond .ok [packCommand dp dir opc] else s.raise .configurationError := by
  simp only [exec, execCmdenc]; exact State.unlessHalted_of_not_fatal h _

theorem execCmddec_of_not_fatal (h : s.fatal = false) (c : Byte) :
    exec (.cmddec c) s =
      s.respond .ok [byteOfBool (commandDataPresent c), byteOfDirection (commandDirection c), commandCode c] := by
  simp only [exec, execCmddec]; exact State.unlessHalted_of_not_fatal h _

theorem execFbuild_of_not_fatal (h : s.fatal = false) (c : Byte) (p : List Byte) :
    exec (.fbuild c p) s =
      if p.length + 1 > s.maxLen then s.raise .payloadTooLarge else s.replaceFrame (c :: p) := by
  simp only [exec, execFbuild]; exact State.unlessHalted_of_not_fatal h _

theorem execFload_of_not_fatal (h : s.fatal = false) (f : List Byte) :
    exec (.fload f) s =
      if f.length = 0 ∨ f.length > s.maxLen then s.raise .badLength else s.replaceFrame f := by
  simp only [exec, execFload]; exact State.unlessHalted_of_not_fatal h _

theorem execFparse_of_not_fatal (h : s.fatal = false) :
    exec .fparse s =
      if s.flen.toNat = 0 then s.raise .badLength
      else s.withBytes 0 1 fun c => s.withBytes 1 (s.flen.toNat - 1) fun p =>
        s.respond .ok (c ++ BitVec.ofNat 8 (s.flen.toNat - 1) :: p) := by
  simp only [exec, execFparse]; exact State.unlessHalted_of_not_fatal h _

theorem execFread_of_not_fatal (h : s.fatal = false) :
    exec .fread s =
      s.withBytes 0 s.flen.toNat fun f => s.respond .ok (s.flen :: f) := by
  simp only [exec, execFread]; exact State.unlessHalted_of_not_fatal h _

theorem execFclr_of_not_fatal (h : s.fatal = false) :
    exec .fclr s =
      s.replaceFrame [] := by
  simp only [exec, execFclr]; exact State.unlessHalted_of_not_fatal h _

theorem execTsenc_of_not_fatal (h : s.fatal = false) (t : Timestamp) :
    exec (.tsenc t) s =
      if timestampOk t then s.respond .ok (tsEnc t).bytes else s.raise .rangeError := by
  simp only [exec, execTsenc]; exact State.unlessHalted_of_not_fatal h _

theorem execTsdec_of_not_fatal (h : s.fatal = false) (p : TsPayload) :
    exec (.tsdec p) s =
      s.respondTimestamp p := by
  simp only [exec, execTsdec]; exact State.unlessHalted_of_not_fatal h _

theorem execV16enc_of_not_fatal (h : s.fatal = false) (v : Half) :
    exec (.v16enc v) s =
      if decimal16Ok v then s.respond .ok (v16Enc v).bytes else s.raise .rangeError := by
  simp only [exec, execV16enc]; exact State.unlessHalted_of_not_fatal h _

theorem execV16dec_of_not_fatal (h : s.fatal = false) (p : ValuePayload) :
    exec (.v16dec p) s =
      s.respondValue p := by
  simp only [exec, execV16dec]; exact State.unlessHalted_of_not_fatal h _

theorem execTsput_of_not_fatal (h : s.fatal = false) (c : Byte) (t : Timestamp) :
    exec (.tsput c t) s =
      if 6 + 1 > s.maxLen then s.raise .payloadTooLarge
      else if timestampOk t then s.replaceFrame (c :: (tsEnc t).bytes)
      else s.raise .rangeError := by
  simp only [exec, execTsput]; exact State.unlessHalted_of_not_fatal h _

theorem execTsget_of_not_fatal (h : s.fatal = false) :
    exec .tsget s =
      if s.flen.toNat < 7 then s.raise .badLength
      else s.withBytes typedFieldAddress 6 fun p => s.respondTimestamp (tsPayloadOf p) := by
  simp only [exec, execTsget]; exact State.unlessHalted_of_not_fatal h _

theorem execV16put_of_not_fatal (h : s.fatal = false) (c : Byte) (v : Half) :
    exec (.v16put c v) s =
      if 2 + 1 > s.maxLen then s.raise .payloadTooLarge
      else if decimal16Ok v then s.replaceFrame (c :: (v16Enc v).bytes)
      else s.raise .rangeError := by
  simp only [exec, execV16put]; exact State.unlessHalted_of_not_fatal h _

theorem execV16get_of_not_fatal (h : s.fatal = false) :
    exec .v16get s =
      if s.flen.toNat < 3 then s.raise .badLength
      else s.withBytes typedFieldAddress 2 fun p => s.respondValue (valuePayloadOf p) := by
  simp only [exec, execV16get]; exact State.unlessHalted_of_not_fatal h _

/-- STATUS, also under the fatal latch. -/
theorem execStatus_eq (s : State) : exec .status s = s.respondOnly .ok [s.readSt, s.cfgMaxLen] := rfl

/-- Under the fatal latch every operation but STATUS is refused. -/
theorem exec_of_fatal (h : s.fatal = true) {i : Instr} (hi : i ≠ .status) :
    exec i s = s.respondOnly .halted [] := by
  cases i <;> first
    | exact absurd rfl hi
    | (simp only [exec, execBcddec, execBcdenc, execAdrenc, execAdrdec, execCmdenc, execCmddec, execFbuild, execFload, execFparse, execFread, execFclr, execTsenc, execTsdec, execV16enc, execV16dec, execTsput, execTsget, execV16put, execV16get]
       exact State.unlessHalted_of_fatal h _)

end Sys2Proof.Machine
end

