-- ==== Sys2Proof/Laws/PerInstr.lean ====
section
/-! SUPPORT. The per-instruction family EncodeLength: a well-formed instruction's packet has the length that the packet itself asks for (30_encoding.md R57), one lemma per constructor. -/

namespace Sys2Proof.Laws

/-- The packet of a well-formed instruction asks for its own length (30_encoding.md R57). -/
def EncodeLength.Statement (i : Instr) : Prop :=
  i.wellFormed = true → requestLength (encode i) = some (encode i).length

/-- A packet of a known operation asks for the length its format and operand bytes give. -/
theorem requestLength_encode (i : Instr) :
    requestLength (encode i) = i.mnemonic.format.requestLength i.operandBytes := by
  simp [requestLength, encode]

theorem EncodeLength.bcddec (b : Byte) : EncodeLength.Statement (.bcddec b) := fun _ => requestLength_encode _
theorem EncodeLength.bcdenc (v : Byte) : EncodeLength.Statement (.bcdenc v) := fun _ => requestLength_encode _
theorem EncodeLength.adrenc (t i : Byte) : EncodeLength.Statement (.adrenc t i) := fun _ => requestLength_encode _
theorem EncodeLength.adrdec (a : Byte) : EncodeLength.Statement (.adrdec a) := fun _ => requestLength_encode _
theorem EncodeLength.cmdenc (dp : Bool) (dir : Direction) (opc : Byte) :
    EncodeLength.Statement (.cmdenc dp dir opc) := fun _ => requestLength_encode _
theorem EncodeLength.cmddec (c : Byte) : EncodeLength.Statement (.cmddec c) := fun _ => requestLength_encode _
theorem EncodeLength.fbuild (c : Byte) (p : List Byte) : EncodeLength.Statement (.fbuild c p) := by
  intro h
  have hp : p.length ≤ 255 := by simpa [Instr.wellFormed] using h
  rw [requestLength_encode]
  simp [encode, Instr.mnemonic, Mnemonic.format, Instr.operandBytes, Format.requestLength,
    Nat.mod_eq_of_lt (show p.length < 256 by omega)]
  omega
theorem EncodeLength.fload (f : List Byte) : EncodeLength.Statement (.fload f) := by
  intro h
  have hf : f.length ≤ 255 := by simpa [Instr.wellFormed] using h
  rw [requestLength_encode]
  simp [encode, Instr.mnemonic, Mnemonic.format, Instr.operandBytes, Format.requestLength,
    Nat.mod_eq_of_lt (show f.length < 256 by omega)]
  omega
theorem EncodeLength.fparse : EncodeLength.Statement .fparse := fun _ => requestLength_encode _
theorem EncodeLength.fread : EncodeLength.Statement .fread := fun _ => requestLength_encode _
theorem EncodeLength.fclr : EncodeLength.Statement .fclr := fun _ => requestLength_encode _
theorem EncodeLength.tsenc (t : Timestamp) : EncodeLength.Statement (.tsenc t) := fun _ => requestLength_encode _
theorem EncodeLength.tsdec (p : TsPayload) : EncodeLength.Statement (.tsdec p) := fun _ => requestLength_encode _
theorem EncodeLength.v16enc (v : Half) : EncodeLength.Statement (.v16enc v) := fun _ => requestLength_encode _
theorem EncodeLength.v16dec (p : ValuePayload) : EncodeLength.Statement (.v16dec p) := fun _ => requestLength_encode _
theorem EncodeLength.tsput (c : Byte) (t : Timestamp) : EncodeLength.Statement (.tsput c t) := fun _ => requestLength_encode _
theorem EncodeLength.tsget : EncodeLength.Statement .tsget := fun _ => requestLength_encode _
theorem EncodeLength.v16put (c : Byte) (v : Half) : EncodeLength.Statement (.v16put c v) := fun _ => requestLength_encode _
theorem EncodeLength.v16get : EncodeLength.Statement .v16get := fun _ => requestLength_encode _
theorem EncodeLength.status : EncodeLength.Statement .status := fun _ => requestLength_encode _

end Sys2Proof.Laws
end

