-- ==== Sys2Proof/Tests/Slice0.lean ====
section
/-! SUPPORT. The model's own tests: ill-formed terms, one written-out packet per operation, single steps taken from the vectors of 95_test_vectors.md (named by their numbers), and for every statement of Certificates/Slice0/Obligations.lean that has hypotheses a witness that meets them. -/

open Sys2Proof Sys2Proof.Machine Sys2Proof.Reading

namespace Sys2Proof.Tests

/-- Bytes from numbers. -/
def bs (ns : List Nat) : List Byte := ns.map (BitVec.ofNat 8)

/-! ### Ill-formed terms -/

theorem test_wellFormed_refuses_fbuild_256 : (Instr.fbuild 0x00#8 (List.replicate 256 0x00#8)).wellFormed = false := by rw [Instr.wellFormed, List.length_replicate]; rfl
theorem test_wellFormed_accepts_fbuild_255 : (Instr.fbuild 0x00#8 (List.replicate 255 0x00#8)).wellFormed = true := by rw [Instr.wellFormed, List.length_replicate]; rfl
theorem test_wellFormed_refuses_fload_256 : (Instr.fload (List.replicate 256 0x00#8)).wellFormed = false := by rw [Instr.wellFormed, List.length_replicate]; rfl
theorem test_wellFormed_accepts_fload_255 : (Instr.fload (List.replicate 255 0x00#8)).wellFormed = true := by rw [Instr.wellFormed, List.length_replicate]; rfl

/-! ### Decoding: a packet written out from 30_encoding.md R54 for every operation -/

/-- No two operations share an OPSEL value (30_encoding.md R54). -/
theorem test_opsel_distinct : (Mnemonic.all.map Mnemonic.opsel).Pairwise (· ≠ ·) := by decide
theorem test_twenty_operations : Mnemonic.all.length = 20 := by decide

theorem test_decode_bcddec : (decode (bs [0x00, 0x25])).toOption = some (.bcddec 0x25#8) := by decide
theorem test_decode_bcdenc : (decode (bs [0x01, 0x19])).toOption = some (.bcdenc 25#8) := by decide
theorem test_decode_adrenc : (decode (bs [0x10, 0x03, 0x07])).toOption = some (.adrenc 3#8 7#8) := by decide
theorem test_decode_adrdec : (decode (bs [0x11, 0x37])).toOption = some (.adrdec 0x37#8) := by decide
theorem test_decode_cmdenc : (decode (bs [0x20, 0x00, 0x01, 0x05])).toOption = some (.cmdenc false .hubToNode 5#8) := by decide
theorem test_decode_cmddec : (decode (bs [0x21, 0x85])).toOption = some (.cmddec 0x85#8) := by decide
theorem test_decode_fbuild : (decode (bs [0x30, 0x85, 0x02, 0x23, 0x45])).toOption = some (.fbuild 0x85#8 [0x23#8, 0x45#8]) := by decide
theorem test_decode_fload : (decode (bs [0x31, 0x03, 0x85, 0x23, 0x45])).toOption = some (.fload [0x85#8, 0x23#8, 0x45#8]) := by decide
theorem test_decode_fparse : (decode (bs [0x32])).toOption = some (.fparse) := by decide
theorem test_decode_fread : (decode (bs [0x33])).toOption = some (.fread) := by decide
theorem test_decode_fclr : (decode (bs [0x34])).toOption = some (.fclr) := by decide
theorem test_decode_tsenc : (decode (bs [0x40, 0x07, 0xE7, 0x06, 0x0F, 0x0E, 0x1E])).toOption = some (.tsenc ⟨2023#16, 6#8, 15#8, 14#8, 30#8⟩) := by decide
theorem test_decode_tsdec : (decode (bs [0x41, 0x20, 0x23, 0x06, 0x15, 0x14, 0x30])).toOption = some (.tsdec ⟨0x20#8, 0x23#8, 0x06#8, 0x15#8, 0x14#8, 0x30#8⟩) := by decide
theorem test_decode_v16enc : (decode (bs [0x42, 0x09, 0x29])).toOption = some (.v16enc 2345#16) := by decide
theorem test_decode_v16dec : (decode (bs [0x43, 0x23, 0x45])).toOption = some (.v16dec ⟨0x23#8, 0x45#8⟩) := by decide
theorem test_decode_tsput : (decode (bs [0x44, 0x8A, 0x07, 0xE7, 0x06, 0x0F, 0x0E, 0x1E])).toOption = some (.tsput 0x8A#8 ⟨2023#16, 6#8, 15#8, 14#8, 30#8⟩) := by decide
theorem test_decode_tsget : (decode (bs [0x45])).toOption = some (.tsget) := by decide
theorem test_decode_v16put : (decode (bs [0x46, 0x85, 0x09, 0x29])).toOption = some (.v16put 0x85#8 2345#16) := by decide
theorem test_decode_v16get : (decode (bs [0x47])).toOption = some (.v16get) := by decide
theorem test_decode_status : (decode (bs [0xF0])).toOption = some (.status) := by decide

/-- Refusals in the order of 30_encoding.md R59. -/
theorem test_decode_refuses_reserved_opsel : decode [0x50#8, 0x01#8, 0x02#8] = .error .reservedOpsel := by rfl
theorem test_decode_refuses_short : decode [0x30#8, 0x85#8] = .error .wrongLength := by rfl
theorem test_decode_refuses_reserved_operand : decode [0x20#8, 0x02#8, 0x00#8, 0x40#8] = .error .reservedOperand := by rfl

/-! ### Table words: the packet in the word's lowest bits, zero operands above -/

theorem test_table_word_tsenc : decodeTableWord 8 0x40 = some (.tsenc ⟨0#16, 0#8, 0#8, 0#8, 0#8⟩) := by decide
theorem test_table_word_adrenc : decodeTableWord 24 0x070310 = some (.adrenc 3#8 7#8) := by decide
theorem test_table_word_reserved : decodeTableWord 8 0x02 = none := by decide
/-- The first step after reset runs the packet that stands for the word. -/
theorem test_withFetchWord_bcddec :
    step (State.reset.withFetchWord 16 0x2500) = exec (.bcddec 0x25#8) State.reset := by rfl
theorem test_withFetchWord_fbuild :
    step (State.reset.withFetchWord 8 0x30) = exec (.fbuild 0x00#8 []) State.reset := by rfl

/-! ### Single steps, from the vectors of 95_test_vectors.md -/

/-- A state of the reference configuration with a frame in the buffer and a value of ST. -/
def holding (f : List Nat) (st : Byte) : State :=
  { State.reset with frame := Memory.writeN [] 0 (bs f), flen := BitVec.ofNat 8 f.length, st := st }

/-- One request: the response, the ten bytes of F, FLEN and ST. -/
def serve (s : State) (packet : List Nat) : Option (List Byte × List Byte × Byte × Byte) :=
  match step (s.present (bs packet)) with
  | .next t => some (t.responses.getLastD [], t.frame.readN 0 10, t.flen, t.st)
  | .fault _ => none
  | .refused _ => none

/-- What a request should give. -/
def gives (response f : List Nat) (flen st : Byte) : Option (List Byte × List Byte × Byte × Byte) :=
  some (bs response, bs f ++ List.replicate (10 - f.length) 0x00#8, flen, st)

theorem test_bcddec_S1 : serve (holding [] 0x00#8) [0x00, 0x25] = gives [0x00, 0x19] [] 0#8 0x00#8 := by decide
theorem test_bcddec_V7 : serve (holding [] 0x00#8) [0x00, 0xFF] = gives [0x03, 0xA5] [] 0#8 0x03#8 := by decide
theorem test_bcdenc_V12 : serve (holding [] 0x00#8) [0x01, 0x19] = gives [0x00, 0x25] [] 0#8 0x00#8 := by decide
theorem test_bcdenc_V14 : serve (holding [] 0x00#8) [0x01, 0x64] = gives [0x05] [] 0#8 0x05#8 := by decide
theorem test_adrenc_V17 : serve (holding [] 0x00#8) [0x10, 0x03, 0x07] = gives [0x00, 0x37] [] 0#8 0x00#8 := by decide
theorem test_adrenc_V20 : serve (holding [] 0x00#8) [0x10, 0x00, 0x10] = gives [0x01] [] 0#8 0x81#8 := by decide
theorem test_adrdec_V21 : serve (holding [] 0x00#8) [0x11, 0xF0] = gives [0x00, 0x0F, 0x00] [] 0#8 0x00#8 := by decide
theorem test_adrdec_V23 : serve (holding [] 0x00#8) [0x11, 0x37] = gives [0x00, 0x03, 0x07] [] 0#8 0x00#8 := by decide
theorem test_cmdenc_V29 : serve (holding [] 0x00#8) [0x20, 0x00, 0x01, 0x05] = gives [0x00, 0x45] [] 0#8 0x00#8 := by decide
theorem test_cmdenc_V32 : serve (holding [] 0x00#8) [0x20, 0x01, 0x00, 0x40] = gives [0x01] [] 0#8 0x81#8 := by decide
theorem test_cmddec_V36 : serve (holding [] 0x00#8) [0x21, 0x85] = gives [0x00, 0x01, 0x00, 0x05] [] 0#8 0x00#8 := by decide
theorem test_cmddec_V37 : serve (holding [] 0x00#8) [0x21, 0x7F] = gives [0x00, 0x00, 0x01, 0x3F] [] 0#8 0x00#8 := by decide
theorem test_fbuild_V48 : serve (holding [0x85, 0x23, 0x45] 0x00#8) [0x30, 0x04, 0x00] = gives [0x00] [0x04] 1#8 0x00#8 := by decide
theorem test_fbuild_V54 : serve (holding [0xC1, 0x01, 0x02, 0x03, 0x04, 0x05, 0x06, 0x07, 0x08, 0x09] 0x00#8) [0x30, 0xC1, 0x0A, 0x01, 0x02, 0x03, 0x04, 0x05, 0x06, 0x07, 0x08, 0x09, 0x0A] = gives [0x02] [0xC1, 0x01, 0x02, 0x03, 0x04, 0x05, 0x06, 0x07, 0x08, 0x09] 10#8 0x02#8 := by decide
theorem test_fload_V62 : serve (holding [0x85, 0x23, 0x45] 0x00#8) [0x31, 0x0A, 0x11, 0x22, 0x33, 0x44, 0x55, 0x66, 0x77, 0x88, 0x99, 0xAA] = gives [0x00] [0x11, 0x22, 0x33, 0x44, 0x55, 0x66, 0x77, 0x88, 0x99, 0xAA] 10#8 0x00#8 := by decide
theorem test_fload_V63 : serve (holding [0x85, 0x23, 0x45] 0x00#8) [0x31, 0x00] = gives [0x04] [0x85, 0x23, 0x45] 3#8 0x04#8 := by decide
theorem test_fparse_V46 : serve (holding [0x85, 0x23, 0x45] 0x00#8) [0x32] = gives [0x00, 0x85, 0x02, 0x23, 0x45] [0x85, 0x23, 0x45] 3#8 0x00#8 := by decide
theorem test_fparse_V44 : serve (holding [] 0x00#8) [0x32] = gives [0x04] [] 0#8 0x04#8 := by decide
theorem test_fread_V52 : serve (holding [0xC1, 0x01, 0x02, 0x03, 0x04, 0x05, 0x06, 0x07, 0x08, 0x09] 0x02#8) [0x33] = gives [0x00, 0x0A, 0xC1, 0x01, 0x02, 0x03, 0x04, 0x05, 0x06, 0x07, 0x08, 0x09] [0xC1, 0x01, 0x02, 0x03, 0x04, 0x05, 0x06, 0x07, 0x08, 0x09] 10#8 0x00#8 := by decide
theorem test_fread_V43 : serve (holding [] 0x00#8) [0x33] = gives [0x00, 0x00] [] 0#8 0x00#8 := by decide
theorem test_fclr_V67 : serve (holding [0xC1, 0x01, 0x02, 0x03, 0x04, 0x05, 0x06, 0x07, 0x08, 0x09] 0x06#8) [0x34] = gives [0x00] [] 0#8 0x00#8 := by decide
theorem test_fclr_V131 : serve (holding [0x85, 0x23, 0x45] 0x81#8) [0x34] = gives [0x07] [0x85, 0x23, 0x45] 3#8 0x81#8 := by decide
theorem test_tsenc_V72 : serve (holding [] 0x00#8) [0x40, 0x07, 0xCF, 0x0C, 0x1F, 0x17, 0x3B] = gives [0x00, 0x19, 0x99, 0x12, 0x31, 0x23, 0x59] [] 0#8 0x00#8 := by decide
theorem test_tsenc_V75 : serve (holding [] 0x00#8) [0x40, 0x07, 0xE7, 0x06, 0x0F, 0x0E, 0x64] = gives [0x05] [] 0#8 0x05#8 := by decide
theorem test_tsdec_V78 : serve (holding [] 0x00#8) [0x41, 0xFF, 0xFF, 0xFF, 0xFF, 0xFF, 0xFF] = gives [0x03, 0x41, 0x19, 0xA5, 0xA5, 0xA5, 0xA5] [] 0#8 0x03#8 := by decide
theorem test_tsdec_S4 : serve (holding [] 0x00#8) [0x41, 0x20, 0x23, 0x06, 0x15, 0x14, 0x30] = gives [0x00, 0x07, 0xE7, 0x06, 0x0F, 0x0E, 0x1E] [] 0#8 0x00#8 := by decide
theorem test_v16enc_V84 : serve (holding [] 0x00#8) [0x42, 0x09, 0x29] = gives [0x00, 0x23, 0x45] [] 0#8 0x00#8 := by decide
theorem test_v16enc_V86 : serve (holding [] 0x00#8) [0x42, 0x27, 0x10] = gives [0x05] [] 0#8 0x05#8 := by decide
theorem test_v16dec_V88 : serve (holding [] 0x00#8) [0x43, 0x23, 0x45] = gives [0x00, 0x09, 0x29] [] 0#8 0x00#8 := by decide
theorem test_v16dec_V95 : serve (holding [] 0x00#8) [0x43, 0x23, 0x4B] = gives [0x03, 0x09, 0x2F] [] 0#8 0x03#8 := by decide
theorem test_tsput_V98 : serve (holding [] 0x00#8) [0x44, 0x8A, 0x07, 0xE7, 0x06, 0x0F, 0x0E, 0x1E] = gives [0x00] [0x8A, 0x20, 0x23, 0x06, 0x15, 0x14, 0x30] 7#8 0x00#8 := by decide
theorem test_tsput_V107 : serve (holding [0x85, 0x23, 0x45] 0x00#8) [0x44, 0x8A, 0x27, 0x10, 0x06, 0x0F, 0x0E, 0x1E] = gives [0x05] [0x85, 0x23, 0x45] 3#8 0x05#8 := by decide
theorem test_tsget_V113 : serve (holding [0x8A, 0x20, 0x23, 0x06, 0x15, 0x14, 0x30, 0xFF, 0xFF, 0xFF] 0x00#8) [0x45] = gives [0x00, 0x07, 0xE7, 0x06, 0x0F, 0x0E, 0x1E] [0x8A, 0x20, 0x23, 0x06, 0x15, 0x14, 0x30, 0xFF, 0xFF, 0xFF] 10#8 0x00#8 := by decide
theorem test_tsget_V114 : serve (holding [0x8A, 0x20, 0x23, 0x06, 0x15, 0x14] 0x00#8) [0x45] = gives [0x04] [0x8A, 0x20, 0x23, 0x06, 0x15, 0x14] 6#8 0x04#8 := by decide
theorem test_v16put_V103 : serve (holding [0x8A, 0x20, 0x23, 0x06, 0x15, 0x14, 0x30] 0x00#8) [0x46, 0x85, 0x09, 0x29] = gives [0x00] [0x85, 0x23, 0x45] 3#8 0x00#8 := by decide
theorem test_v16put_V106 : serve (holding [0x85, 0x23, 0x45] 0x00#8) [0x46, 0x85, 0x27, 0x10] = gives [0x05] [0x85, 0x23, 0x45] 3#8 0x05#8 := by decide
theorem test_v16get_V110 : serve (holding [0x85, 0x2A, 0x45] 0x00#8) [0x47] = gives [0x03, 0x0B, 0xE5] [0x85, 0x2A, 0x45] 3#8 0x03#8 := by decide
theorem test_v16get_V111 : serve (holding [0x85, 0x2A] 0x00#8) [0x47] = gives [0x04] [0x85, 0x2A] 2#8 0x04#8 := by decide
theorem test_status_V122 : serve (holding [] 0x06#8) [0xF0] = gives [0x00, 0x06, 0x0A] [] 0#8 0x06#8 := by decide
theorem test_status_V127 : serve (holding [] 0x81#8) [0xF0] = gives [0x00, 0x81, 0x0A] [] 0#8 0x81#8 := by decide
theorem test_reserved_opsel_V117 : serve (holding [] 0x00#8) [0x02, 0x00] = gives [0x06] [] 0#8 0x06#8 := by decide
theorem test_reserved_under_latch_V129 : serve (holding [] 0x81#8) [0x02] = gives [0x07] [] 0#8 0x81#8 := by decide
theorem test_illformed_status_V125 : serve (holding [] 0x00#8) [0xF0, 0x00] = gives [0x06] [] 0#8 0x00#8 := by decide
theorem test_reserved_operand_V35 : serve (holding [] 0x00#8) [0x20, 0x02, 0x00, 0x40] = gives [0x06] [] 0#8 0x06#8 := by decide
theorem test_short_fbuild_V59 : serve (holding [0xC1, 0x01, 0x02, 0x03, 0x04, 0x05, 0x06, 0x07, 0x08, 0x09] 0x00#8) [0x30, 0x85, 0x14, 0x01, 0x02] = gives [0x06] [0xC1, 0x01, 0x02, 0x03, 0x04, 0x05, 0x06, 0x07, 0x08, 0x09] 10#8 0x06#8 := by decide

/-- V134: reset clears the latch, and gives no response. -/
theorem test_reset_V134 :
    step { holding [0x85] 0x81#8 with pending := [.reset] } = .next State.reset := by rfl

/-! ### The memory and the assembler -/

/-- Writing what an unlisted byte holds removes the cell. -/
theorem test_memory_canonical : Memory.write (Memory.write [] 3 0x41#8) 3 0x00#8 = [] := by decide
theorem test_memory_order : Memory.write (Memory.write [] 3 0x41#8) 1 0x42#8 = [(1, 0x42#8), (3, 0x41#8)] := by decide
theorem test_memory_wf_refuses_zero_cell : Memory.wf [(3, 0x00#8)] = false := by decide
theorem test_memory_wf_refuses_order : Memory.wf [(3, 0x01#8), (3, 0x02#8)] = false := by decide
theorem test_assemble_tsput :
    assemble "TSPUT 0x8A, 2023, 6, 15, 14, 30".toList = some (bs [0x44, 0x8A, 0x07, 0xE7, 0x06, 0x0F, 0x0E, 0x1E]) := by decide
/-- Small hexadecimal digits, and brackets where the spec shows none, are the model's choice (log 17). -/
theorem test_assemble_small_hex_in_brackets : assemble "BCDDEC [0x9a]".toList = some (bs [0x00, 0x9A]) := by decide
theorem test_digit_worth : "09AFaf".toList.map digitOf = [0, 9, 10, 15, 10, 15].map some ∧ digitOf 'G' = none ∧ digitOf '/' = none := by decide
theorem test_assemble_refuses_two_operands : assemble "BCDDEC 1, 2".toList = none := by decide

/-! ### Witnesses: concrete states and operands that meet the hypotheses of the statements -/

/-- The frame of V45 in the buffer. -/
def framed : State := holding [0x85, 0x23, 0x45] 0x00#8

/-- The frame of V98 in the buffer. -/
def stamped : State := holding [0x8A, 0x20, 0x23, 0x06, 0x15, 0x14, 0x30] 0x00#8

/-- A full buffer (V51). -/
def full : State := holding [0xC1, 0x01, 0x02, 0x03, 0x04, 0x05, 0x06, 0x07, 0x08, 0x09] 0x02#8

/-- Under the fatal latch. -/
def halted : State := holding [0x85] 0x81#8

/-- A state no run reaches: FLEN is one over MAXLEN. -/
def pastTheBuffer (m : Nat) : State :=
  { State.reset with cfgMaxLen := BitVec.ofNat 8 m, flen := BitVec.ofNat 8 (m + 1) }

/-- A frame that fits, put in an empty buffer, keeps the buffer's invariant. -/
theorem holding_frameInv (f : List Nat) (st : Byte) (h : f.length ≤ 10) : (holding f st).FrameInv := by
  refine ⟨Memory.writeN_wf (by decide) _ _, ?_, fun k hk => ?_⟩
  · show (BitVec.ofNat 8 f.length).toNat ≤ 10
    simp; omega
  · have hl : f.length ≤ k := by simpa [holding, Nat.mod_eq_of_lt (show f.length < 256 by omega)] using hk
    show (Memory.writeN [] 0 (bs f)).read k = 0x00#8
    rw [Memory.read_writeN_outside (.inr (by simpa [bs] using hl))]
    rfl

theorem witness_frameInv_empty : State.reset.FrameInv := ⟨rfl, by decide, fun _ _ => rfl⟩
theorem witness_frameInv_framed : framed.FrameInv := holding_frameInv _ _ (by decide)
theorem witness_frameInv_full : full.FrameInv := holding_frameInv _ _ (by decide)

/-- InvariantHoldsAtReset, EveryRunEndsWithOneResponsePerRequest: the invariant, at reset and with a full buffer. -/
theorem witness_inv_full : full.Inv := ⟨by decide, witness_frameInv_full, by show _ ∈ _; decide⟩

/-- ResetClearsBufferLengthAndStatus. -/
theorem witness_ResetClearsBufferLengthAndStatus :
    ({ halted with pending := [.reset] } : State).pending = .reset :: [] := rfl

/-- OnlyResetClearsTheFatalLatch, both clauses. -/
theorem witness_OnlyResetClearsTheFatalLatch_reset :
    ({ halted with pending := [.resetDuring [0x33#8]] } : State).pending = .resetDuring [0x33#8] :: [] ∧
    latched { halted with pending := [.reset] } ∧
    step { halted with pending := [.reset] } = .next State.reset ∧ unlatched State.reset := ⟨rfl, by decide, rfl, by decide⟩

/-- FrameInvariantKeptByEveryStep: a step that overwrites a full buffer. -/
theorem witness_FrameInvariantKeptByEveryStep :
    ∃ t, (full.present [0x30#8, 0x04#8, 0x00#8]).FrameInv ∧ step (full.present [0x30#8, 0x04#8, 0x00#8]) = .next t ∧ t.flen = 1#8 :=
  ⟨_, witness_frameInv_full, rfl, by decide⟩

/-- StatusKeepsToTheReachableValues: a step from a reachable status; every reachable value; a step under the latch. -/
theorem witness_StatusKeepsToTheReachableValues :
    (∃ t, (State.reset.present [0x10#8, 0x10#8, 0x00#8]).StatusInv ∧
      step (State.reset.present [0x10#8, 0x10#8, 0x00#8]) = .next t ∧ t.st = 0x81#8) ∧
    reachableSt.length = 7 ∧
    ∃ t, latched (halted.present [0x00#8, 0x25#8]) ∧ step (halted.present [0x00#8, 0x25#8]) = .next t :=
  ⟨⟨_, by show _ ∈ _; decide, rfl, by decide⟩, by decide, ⟨_, by decide, rfl⟩⟩

/-- NoStepStopsUnderTheFrameInvariant. -/
theorem witness_NoStepStopsUnderTheFrameInvariant : (full.present [0x33#8]).FrameInv := witness_frameInv_full

/-- DecodeOfEncodeIsTheInstruction: the longest payload and the longest frame. -/
theorem witness_DecodeOfEncodeIsTheInstruction :
    (Instr.fbuild 0x85#8 (List.replicate 255 0x01#8)).wellFormed = true ∧ (Instr.fload (List.replicate 255 0x01#8)).wellFormed = true := by
  rw [Instr.wellFormed, Instr.wellFormed, List.length_replicate]; decide

/-- EncodeOfDecodeIsThePacket. -/
theorem witness_EncodeOfDecodeIsThePacket : decode [0x46#8, 0x85#8, 0x09#8, 0x29#8] = .ok (.v16put 0x85#8 2345#16) := rfl

/-- StepRunsTheDecodedInstruction. -/
theorem witness_StepRunsTheDecodedInstruction :
    (framed.present [0x32#8]).pending = .request [0x32#8] :: [] ∧ decode [0x32#8] = .ok .fparse := ⟨rfl, rfl⟩

/-- RequestsAreServedInTheDecodingOrder: a reserved OPSEL under the latch, an ill-formed STATUS. -/
theorem witness_RequestsAreServedInTheDecodingOrder :
    (halted.present [0x02#8]).pending = .request (0x02#8 :: []) :: [] ∧
    (halted.present [0xF0#8, 0x00#8]).pending = .request (0xF0#8 :: [0x00#8]) :: [] := ⟨rfl, rfl⟩

/-- EmptyPacketAndNoPacketDoNothing. -/
theorem witness_EmptyPacketAndNoPacketDoNothing :
    framed.pending = [] ∧ (framed.present []).pending = .request [] :: [] := ⟨rfl, rfl⟩

/-- ReservedOpselIsIllegal: both ends of every reserved range. -/
theorem witness_ReservedOpselIsIllegal :
    (∀ op ∈ bs [0x02, 0x0F, 0x12, 0x1F, 0x22, 0x2F, 0x35, 0x3F, 0x48, 0x4F, 0x50, 0xEF, 0xF1, 0xFF], reservedOpsel op) ∧
    (framed.present [0xFF#8]).pending = .request (0xFF#8 :: []) :: [] ∧ unlatched (framed.present [0xFF#8]) :=
  ⟨by decide, rfl, by decide⟩

/-- WrongLengthIsIllegal: too short, too long, the length byte missing, a length that disagrees, an ill-formed STATUS. -/
theorem witness_WrongLengthIsIllegal :
    decode [0x00#8] = .error .wrongLength ∧ decode [0x00#8, 0x25#8, 0x00#8] = .error .wrongLength ∧
    decode [0x31#8] = .error .wrongLength ∧ decode [0x31#8, 0x03#8, 0x85#8, 0x23#8] = .error .wrongLength ∧
    decode [0x30#8, 0x85#8] = .error .wrongLength ∧ decode [0x30#8, 0x85#8, 0x02#8, 0x23#8] = .error .wrongLength ∧
    decode [0xF0#8, 0x00#8] = .error .wrongLength ∧ unlatched (framed.present [0x00#8]) ∧ (0x00#8, 2) ∈ fixedLengths :=
  ⟨rfl, rfl, rfl, rfl, rfl, rfl, rfl, by decide, by decide⟩

/-- ReservedFlagOperandIsIllegal: the least reserved value of either operand. -/
theorem witness_ReservedFlagOperandIsIllegal :
    (framed.present [0x20#8, 0x02#8, 0x00#8, 0x40#8]).pending = .request [0x20#8, 0x02#8, 0x00#8, 0x40#8] :: [] ∧
    unlatched (framed.present [0x20#8, 0x02#8, 0x00#8, 0x40#8]) ∧ 2 ≤ (0x02#8 : Byte).toNat ∧
    decode [0x20#8, 0x00#8, 0x02#8, 0x05#8] = .error .reservedOperand := ⟨rfl, by decide, by decide, rfl⟩

/-- HaltedRefusesEveryOtherRequest: under the latch; and a step whose state has ERR = 7. -/
theorem witness_HaltedRefusesEveryOtherRequest :
    (halted.present [0xEF#8]).pending = .request (0xEF#8 :: []) :: [] ∧ latched (halted.present [0xEF#8]) ∧ (0xEF#8 : Byte) ≠ 0xF0#8 ∧
    ∃ t, step { State.reset with st := 0x07#8 } = .next t ∧ t.st &&& 0x07#8 = 0x07#8 := ⟨rfl, by decide, by decide, _, rfl, by decide⟩

/-- StatusRegisterWritesAreComplete: a request that writes ERR, and one that also sets FATAL. -/
theorem witness_StatusRegisterWritesAreComplete :
    (∃ t, step (full.present [0x33#8]) = .next t ∧ t.st = 0x00#8 ∧ t.st ≠ full.st) ∧
    ∃ t, step (full.present [0x20#8, 0x01#8, 0x00#8, 0x40#8]) = .next t ∧ t.st = 0x81#8 :=
  ⟨⟨_, rfl, by decide, by decide⟩, ⟨_, rfl, by decide⟩⟩

/-- FailedOperationsWriteOnlyStatus: MalformedBcd, ConfigurationError, PayloadTooLarge, Halted. -/
theorem witness_FailedOperationsWriteOnlyStatus :
    (∃ t, step (framed.present [0x00#8, 0x3C#8]) = .next t ∧ t.responses = framed.responses ++ [0x03#8 :: [0x2A#8]]) ∧
    (∃ t, step (framed.present [0x10#8, 0x10#8, 0x00#8]) = .next t ∧ t.responses = framed.responses ++ [0x01#8 :: []]) ∧
    (∃ t, step (framed.present (bs [0x30, 0xC1, 10, 1, 2, 3, 4, 5, 6, 7, 8, 9, 10])) = .next t ∧
      t.responses = framed.responses ++ [0x02#8 :: []]) ∧
    ∃ t, step (halted.present [0x33#8]) = .next t ∧ t.responses = halted.responses ++ [0x07#8 :: []] :=
  ⟨⟨_, rfl, by decide⟩, ⟨_, rfl, by decide⟩, ⟨_, rfl, by decide⟩, ⟨_, rfl, by decide⟩⟩

/-- OperationsWriteOnlyTheirWriteSet: an operation of each kind of write set. -/
theorem witness_OperationsWriteOnlyTheirWriteSet :
    (∃ t, exec .status full = .next t) ∧
    (∃ t, exec .fread full = .next t ∧ (Instr.fread).mnemonic ∉ [Mnemonic.fbuild, .fload, .fclr, .tsput, .v16put]) ∧
    (∃ t, exec .fclr full = .next t ∧ t.frame ≠ full.frame ∧ (Instr.fclr).mnemonic ∉ [Mnemonic.adrenc, .cmdenc]) ∧
    ∃ t, exec (.adrenc 16#8 0#8) full = .next t ∧ t.st.getLsbD 7 ≠ full.st.getLsbD 7 :=
  ⟨⟨_, rfl⟩, ⟨_, rfl, by decide⟩, ⟨_, rfl, by decide, by decide⟩, ⟨_, rfl, by decide⟩⟩

/-- OperationsReadOnlyTheirReadSet: different buffers for the operations that do not read; a byte outside F[1..6] and one outside F[1..2] for TSGET and V16GET. -/
theorem witness_OperationsReadOnlyTheirReadSet :
    (framed.FrameInv ∧ stamped.FrameInv ∧ framed.st = stamped.st ∧ framed.cfgMaxLen = stamped.cfgMaxLen ∧
      (Instr.bcddec 0x25#8).mnemonic ∉ [Mnemonic.fparse, .fread, .tsget, .v16get]) ∧
    (framed.flen = framed.flen ∧ ∀ k, k < framed.flen.toNat → framed.readByte k = framed.readByte k) ∧
    (stamped.flen = (holding [0x05, 0x20, 0x23, 0x06, 0x15, 0x14, 0x30] 0x00#8).flen ∧
      ∀ k, 1 ≤ k → k ≤ 6 → stamped.readByte k = (holding [0x05, 0x20, 0x23, 0x06, 0x15, 0x14, 0x30] 0x00#8).readByte k) ∧
    stamped.flen = (holding [0x05, 0x20, 0x23, 0x07, 0x15, 0x14, 0x30] 0x00#8).flen ∧
      ∀ k, 1 ≤ k → k ≤ 2 → stamped.readByte k = (holding [0x05, 0x20, 0x23, 0x07, 0x15, 0x14, 0x30] 0x00#8).readByte k := by
  refine ⟨⟨witness_frameInv_framed, holding_frameInv _ _ (by decide), rfl, rfl, by decide⟩, ⟨rfl, fun _ _ => rfl⟩, ⟨rfl, ?_⟩, rfl, ?_⟩ <;>
    intro k h1 h2 <;> interval_cases k <;> rfl

/-- ResponseDependsOnRequestAndBlockOnly: other earlier responses, another later request. -/
theorem witness_ResponseDependsOnRequestAndBlockOnly :
    sameBlock (framed.present [0x32#8]) { framed with pending := [.request [0x32#8], .reset], responses := [[0x00#8]] } ∧
    ∃ t, step (framed.present [0x32#8]) = .next t := ⟨by decide, _, rfl⟩

/-- ReadingTheBufferHasNoSideEffect: a read, and a later state with the same buffer. -/
theorem witness_ReadingTheBufferHasNoSideEffect :
    (Instr.fparse).mnemonic ∈ [Mnemonic.fparse, .fread, .tsget, .v16get] ∧ (∃ t, exec .fparse full = .next t) ∧
    ({ full with st := 0x00#8, responses := [[0x00#8]] } : State).frame = full.frame ∧
    (latched { full with st := 0x00#8, responses := [[0x00#8]] } ↔ latched full) := ⟨by decide, ⟨_, rfl⟩, rfl, by decide⟩

/-- TypedOperationsIgnoreTheCommandByte: frames that differ in the command byte only. -/
theorem witness_TypedOperationsIgnoreTheCommandByte :
    stamped.FrameInv ∧ (holding [0x05, 0x20, 0x23, 0x06, 0x15, 0x14, 0x30] 0x00#8).FrameInv ∧
    stamped.flen = (holding [0x05, 0x20, 0x23, 0x06, 0x15, 0x14, 0x30] 0x00#8).flen ∧
    ∀ k, k ≠ 0 → stamped.readByte k = (holding [0x05, 0x20, 0x23, 0x06, 0x15, 0x14, 0x30] 0x00#8).readByte k := by
  refine ⟨holding_frameInv _ _ (by decide), holding_frameInv _ _ (by decide), rfl, fun k hk => ?_⟩
  cases k with
  | zero => exact absurd rfl hk
  | succ k => rfl

/-- MemoryWritesAreReadBack: a write that ends at the last byte, and one byte further. -/
theorem witness_MemoryWritesAreReadBack :
    full.frame.wf = true ∧ 8 + (bs [0xAA, 0xBB]).length ≤ full.maxLen ∧ full.maxLen < 9 + (bs [0xAA, 0xBB]).length := by decide

/-- AccessPastTheBufferFaults: FLEN one over MAXLEN, for each clause at its boundary: 10 and 11, 0 and 1, 6 and 7, 2 and 3. -/
theorem witness_AccessPastTheBufferFaults :
    (∀ m ∈ [10, 6, 2, 0],
      unlatched (pastTheBuffer m) ∧ (pastTheBuffer m).maxLen < (pastTheBuffer m).flen.toNat) ∧
    1 ≤ (pastTheBuffer 10).maxLen ∧ (pastTheBuffer 0).maxLen = 0 ∧
    (7 ≤ (pastTheBuffer 6).flen.toNat ∧ (pastTheBuffer 6).maxLen < 7) ∧
    3 ≤ (pastTheBuffer 2).flen.toNat ∧ (pastTheBuffer 2).maxLen < 3 := by decide

/-- EmptyBufferAnswersUntilAFrameIsPut: an empty buffer, and an operation that ends that. -/
theorem witness_EmptyBufferAnswersUntilAFrameIsPut :
    unlatched State.reset ∧ State.reset.flen = 0x00#8 ∧ ∃ t, exec (.fload [0x04#8]) State.reset = .next t ∧ t.flen ≠ 0x00#8 :=
  ⟨by decide, rfl, _, rfl, by decide⟩

/-- BcdFunctionsAreAsDefined, BcdEncodeAndDecodeAreInverse: the largest value, well-formed and malformed bytes, a malformed byte worth more than 99 and one worth less. -/
theorem witness_BcdEncodeAndDecodeAreInverse :
    unlatched framed ∧ 99 ≤ 99 ∧ (99#8 : Byte).toNat ≤ 99 ∧ bcdOk 0x99#8 = true ∧
    (bcdOk 0xFF#8 = false ∧ 99 < bcdDec 0xFF#8) ∧ bcdOk 0x0A#8 = false ∧ bcdDec 0x0A#8 ≤ 99 := by decide

/-- AddressEncodeAndDecodeAreInverse. -/
theorem witness_AddressEncodeAndDecodeAreInverse : unlatched framed ∧ (15#8 : Byte).toNat ≤ 15 := by decide

/-- CommandEncodeAndDecodeAreInverse. -/
theorem witness_CommandEncodeAndDecodeAreInverse : unlatched framed ∧ (63#8 : Byte).toNat ≤ 63 := by decide

/-- FramesReadBackAsBuiltOrLoaded: the largest payload, the largest frame. -/
theorem witness_FramesReadBackAsBuiltOrLoaded :
    unlatched framed ∧ framed.frame.wf = true ∧ (bs [1, 2, 3, 4, 5, 6, 7, 8, 9]).length + 1 ≤ framed.maxLen := by decide

/-- TypedFieldsRoundTrip: the largest timestamp and value, the smallest buffers that hold them. -/
theorem witness_TypedFieldsRoundTrip :
    encodable ⟨9999#16, 99#8, 99#8, 99#8, 99#8⟩ ∧ tsOk ⟨0x99#8, 0x99#8, 0x99#8, 0x99#8, 0x99#8, 0x99#8⟩ = true ∧
    (9999#16 : Half).toNat ≤ 9999 ∧ v16Ok ⟨0x99#8, 0x99#8⟩ = true ∧
    (unlatched { State.reset with cfgMaxLen := 7#8 } ∧ ({ State.reset with cfgMaxLen := 7#8 } : State).frame.wf = true ∧
      7 ≤ ({ State.reset with cfgMaxLen := 7#8 } : State).maxLen) ∧
    unlatched { State.reset with cfgMaxLen := 3#8 } ∧ ({ State.reset with cfgMaxLen := 3#8 } : State).frame.wf = true ∧
      3 ≤ ({ State.reset with cfgMaxLen := 3#8 } : State).maxLen := by decide

/-- Some admissible codes: each operation name by its place in the vocabulary. -/
def someCode : OperationName → BitVec 6 := fun o => BitVec.ofNat 6 o.ctorIdx

/-- Some admissible class values, the hub's as the spec gives it. -/
def someClass : DeviceClass → BitVec 4 := fun c => if c = .hub then 15#4 else BitVec.ofNat 4 c.ctorIdx

/-- VocabularyAndClassesAreEncodable: the two parameters can be met, and two operations with one response. -/
theorem witness_VocabularyAndClassesAreEncodable :
    (∃ opc : Config.OpcMap, opc.code = someCode) ∧ (∃ devt : Config.DevtMap, devt.value = someClass) ∧ unlatched framed ∧
    DeviceClass.rfSwitch ≠ .hub ∧ (15#8 : Byte).toNat ≤ 15 ∧
    ∃ t, responds (.adrenc ((someClass .rfSwitch).setWidth 8) 15#8) framed t [0x00#8, 0x9F#8] := by
  refine ⟨⟨⟨someCode, ?_⟩, rfl⟩, ⟨⟨someClass, ?_, rfl⟩, rfl⟩, by decide, by decide, by decide, _, rfl, by decide⟩
  · intro a b h; cases a <;> cases b <;> first | rfl | (exfalso; revert h; decide)
  · intro a b h; cases a <;> cases b <;> first | rfl | (exfalso; revert h; decide)

/-! The per-operation statements: a state without the latch and one under it, a request of another length, and operands at the boundaries of each clause. -/

/-- `onlyWithOperands` and `haltedWhenLatched`: a wrong number of operands without the latch; a state under the latch. -/
theorem witness_perOperation_states :
    ((framed.present [0x32#8, 0x00#8]).pending = .request (0x32#8 :: [0x00#8]) :: [] ∧ unlatched (framed.present [0x32#8, 0x00#8]) ∧
      [0x00#8].length ≠ 0) ∧ latched halted := ⟨⟨rfl, by decide, by decide⟩, by decide⟩

theorem witness_Bcddec : unlatched framed ∧ wellFormedBcd 0x99#8 ∧ ¬ wellFormedBcd 0x9A#8 ∧ ¬ wellFormedBcd 0xA9#8 := by decide
theorem witness_Bcdenc : unlatched framed ∧ (99#8 : Byte).toNat ≤ 99 ∧ 99 < (100#8 : Byte).toNat := by decide
theorem witness_Adrenc :
    unlatched framed ∧ ((15#8 : Byte).toNat ≤ 15 ∧ (15#8 : Byte).toNat ≤ 15) ∧ (15 < (16#8 : Byte).toNat ∨ 15 < (0#8 : Byte).toNat) ∧
    (15 < (0#8 : Byte).toNat ∨ 15 < (16#8 : Byte).toNat) := by decide
theorem witness_Adrdec : unlatched framed := by decide
theorem witness_Cmdenc :
    unlatched framed ∧ (63#8 : Byte).toNat ≤ 63 ∧ 63 < (64#8 : Byte).toNat ∧ (1 < (2#8 : Byte).toNat ∨ 1 < (0#8 : Byte).toNat) ∧
    (framed.present [0x20#8, 2#8, 0#8, 5#8]).pending = .request [0x20#8, 2#8, 0#8, 5#8] :: [] := by decide
theorem witness_Cmddec : unlatched framed := by decide
theorem witness_Fbuild :
    (bs [0x23, 0x45]).length = (2#8 : Byte).toNat ∧ unlatched framed ∧ framed.frame.wf = true ∧
    (bs [1, 2, 3, 4, 5, 6, 7, 8, 9]).length + 1 ≤ framed.maxLen ∧ framed.maxLen < (bs [1, 2, 3, 4, 5, 6, 7, 8, 9, 10]).length + 1 := by decide
theorem witness_Fbuild_length :
    (framed.present (bs [0x30, 0x85, 0x02, 0x23])).pending = .request (0x30#8 :: bs [0x85, 0x02, 0x23]) :: [] ∧
    ¬ ∃ (c n : Byte) (p : List Byte), bs [0x85, 0x02, 0x23] = c :: n :: p ∧ p.length = n.toNat := by
  refine ⟨rfl, ?_⟩
  rintro ⟨c, n, p, h, hp⟩
  simp [bs] at h
  obtain ⟨-, rfl, rfl⟩ := h
  simp at hp
theorem witness_Fload :
    (bs [0x85, 0x23]).length = (2#8 : Byte).toNat ∧ unlatched framed ∧ framed.frame.wf = true ∧
    (1 ≤ (bs [4]).length ∧ (bs [4]).length ≤ framed.maxLen) ∧ (bs [1, 2, 3, 4, 5, 6, 7, 8, 9, 10]).length ≤ framed.maxLen ∧
    (bs []).length = 0 ∧ framed.maxLen < (bs [1, 2, 3, 4, 5, 6, 7, 8, 9, 10, 11]).length := by decide
theorem witness_Fload_length :
    (framed.present [0x31#8]).pending = .request (0x31#8 :: []) :: [] ∧
    ¬ ∃ (l : Byte) (f : List Byte), ([] : List Byte) = l :: f ∧ f.length = l.toNat := by
  refine ⟨rfl, ?_⟩
  rintro ⟨l, f, h, -⟩
  cases h
theorem witness_Fparse :
    (unlatched State.reset ∧ State.reset.flen.toNat = 0) ∧ unlatched full ∧ 1 ≤ full.flen.toNat ∧ full.flen.toNat ≤ full.maxLen := by decide
theorem witness_Fread :
    (unlatched State.reset ∧ State.reset.flen.toNat ≤ State.reset.maxLen) ∧ unlatched full ∧ full.flen.toNat ≤ full.maxLen := by decide
theorem witness_Fclr : unlatched full ∧ full.frame.wf = true := by decide
theorem witness_Tsenc :
    unlatched framed ∧ encodable ⟨9999#16, 99#8, 99#8, 99#8, 99#8⟩ ∧ ¬ encodable ⟨10000#16, 1#8, 1#8, 1#8, 1#8⟩ ∧
    ¬ encodable ⟨2023#16, 6#8, 15#8, 14#8, 100#8⟩ := by decide
theorem witness_Tsdec :
    unlatched framed ∧ wellFormedTs ⟨0x99#8, 0x99#8, 0x99#8, 0x99#8, 0x99#8, 0x99#8⟩ ∧
    ¬ wellFormedTs ⟨0x20#8, 0x23#8, 0x06#8, 0x15#8, 0x14#8, 0x3A#8⟩ := by decide
theorem witness_V16enc : unlatched framed ∧ (9999#16 : Half).toNat ≤ 9999 ∧ 9999 < (10000#16 : Half).toNat := by decide
theorem witness_V16dec :
    unlatched framed ∧ (wellFormedBcd 0x99#8 ∧ wellFormedBcd 0x99#8) ∧ ¬ (wellFormedBcd 0x23#8 ∧ wellFormedBcd 0x4B#8) := by decide
theorem witness_Tsput :
    unlatched framed ∧ framed.frame.wf = true ∧ 7 ≤ framed.maxLen ∧ encodable ⟨9999#16, 99#8, 99#8, 99#8, 99#8⟩ ∧
    ¬ encodable ⟨10000#16, 1#8, 1#8, 1#8, 1#8⟩ ∧ unlatched { State.reset with cfgMaxLen := 6#8 } ∧
    ({ State.reset with cfgMaxLen := 6#8 } : State).frame.wf = true ∧ ({ State.reset with cfgMaxLen := 6#8 } : State).maxLen < 7 := by decide
theorem witness_Tsget :
    (unlatched (holding [0x8A, 0x20, 0x23, 0x06, 0x15, 0x14] 0x00#8) ∧
      (holding [0x8A, 0x20, 0x23, 0x06, 0x15, 0x14] 0x00#8).flen.toNat < 7) ∧
    (unlatched stamped ∧ 7 ≤ stamped.flen.toNat ∧ stamped.flen.toNat ≤ stamped.maxLen ∧ wellFormedTs (tsFieldOf stamped)) ∧
    7 ≤ (holding [0x8A, 0x20, 0x23, 0x06, 0x15, 0x14, 0x3A] 0x00#8).flen.toNat ∧
    ¬ wellFormedTs (tsFieldOf (holding [0x8A, 0x20, 0x23, 0x06, 0x15, 0x14, 0x3A] 0x00#8)) := by decide
theorem witness_V16put :
    unlatched framed ∧ framed.frame.wf = true ∧ 3 ≤ framed.maxLen ∧ (9999#16 : Half).toNat ≤ 9999 ∧ 9999 < (10000#16 : Half).toNat ∧
    unlatched { State.reset with cfgMaxLen := 2#8 } ∧ ({ State.reset with cfgMaxLen := 2#8 } : State).frame.wf = true ∧
    ({ State.reset with cfgMaxLen := 2#8 } : State).maxLen < 3 := by decide
theorem witness_V16get :
    (unlatched (holding [0x85, 0x2A] 0x00#8) ∧ (holding [0x85, 0x2A] 0x00#8).flen.toNat < 3) ∧
    (unlatched framed ∧ 3 ≤ framed.flen.toNat ∧ framed.flen.toNat ≤ framed.maxLen ∧ wellFormedBcd (framed.readByte 1) ∧
      wellFormedBcd (framed.readByte 2)) ∧
    3 ≤ (holding [0x85, 0x2A, 0x45] 0x00#8).flen.toNat ∧ ¬ wellFormedBcd ((holding [0x85, 0x2A, 0x45] 0x00#8).readByte 1) := by decide
theorem witness_Status :
    (framed.present [0xF0#8, 0x00#8]).pending = .request (0xF0#8 :: [0x00#8]) :: [] ∧ [0x00#8] ≠ ([] : List Byte) := by decide

end Sys2Proof.Tests
end

section
/-! PROOFS. The statements of 00_scope.md: the buffer's reads and writes (R13), the parameters OPC and DEVT (R7, R8), the invariant at reset, and an access past the buffer (log 7). -/

namespace Sys2Proof.Machine

open Sys2Proof.Reading

/-! ### MemRead and MemWrite (R13) -/

/-- MemWrite is not defined past the end of the buffer. -/
theorem State.memWrite_eq_none {s : State} {a : Nat} {vs : List Byte} (h : s.maxLen < a + vs.length) :
    s.memWrite a vs = none := by
  rw [Option.eq_none_iff_forall_ne_some]
  intro t ht
  have hfit := (State.memWrite_eq_some.mp ht).1
  omega

/-- MemRead is not defined past the end of the buffer. -/
theorem State.memRead_eq_none {s : State} {a n : Nat} (h : s.maxLen < a + n) : s.memRead a n = none := by
  rw [Option.eq_none_iff_forall_ne_some]
  intro bs hbs
  have hfit := (State.memRead_eq_some.mp hbs).1
  omega

/-- Settles O25: the canonical form makes the buffer's read-after-write law apply, and definedness is the range test. -/
theorem memoryWritesAreReadBack : Obligations.MemoryWritesAreReadBack := by
  intro s a vs hwf
  constructor
  · intro hfit
    refine ⟨{ s with frame := s.frame.writeN a vs }, State.memWrite_eq_some.mpr ⟨hfit, rfl⟩,
      Memory.writeN_wf hwf a vs, ?_, fun k hk => ?_, rfl⟩
    · exact State.memRead_eq_some.mpr ⟨hfit, (Memory.readN_writeN_same hwf a vs).symm⟩
    · exact Memory.read_writeN_outside hk
  · intro hpast
    exact ⟨State.memWrite_eq_none hpast, State.memRead_eq_none hpast⟩

/-! ### Responses in the words of the statements -/

/-- A response is `answered` of its status code. -/
theorem State.respond_eq_answered (s : State) (st : Status) (rs : List Byte) :
    s.respond st rs = .next (answered s st.code rs) := rfl

/-- An operation that ends in `answered` gives that response. -/
theorem responds_answered {i : Instr} {s : State} {code : Byte} {rs : List Byte}
    (h : exec i s = .next (answered s code rs)) : responds i s (answered s code rs) (code :: rs) :=
  ⟨h, rfl⟩

/-- An operation that ends in `answered` gives no other response. -/
theorem response_of_answered {i : Instr} {s t : State} {code : Byte} {rs r : List Byte}
    (h : exec i s = .next (answered s code rs)) (hr : responds i s t r) : r = code :: rs := by
  obtain ⟨hexec, hresp⟩ := hr
  rw [h] at hexec
  injection hexec with ht
  subst ht
  simpa [answered] using hresp.symm

/-! ### Classes and addresses (R8, 41_address.md R69, R70) -/

/-- Only the hub's class has the value 15. -/
theorem classValue_le_of_ne_hub (devt : Config.DevtMap) {c : DeviceClass} (hc : c ≠ .hub) :
    (devt.value c).toNat ≤ 14 := by
  have hne : devt.value c ≠ 15#4 := fun h => hc (devt.injective (h.trans devt.hubValue.symm))
  have hne' : (devt.value c).toNat ≠ 15 := fun h => hne (BitVec.eq_of_toNat_eq h)
  have hlt := (devt.value c).isLt
  omega

/-- A 4-bit value carried in an operand byte is in range. -/
theorem setWidth_nibble_le (v : BitVec 4) : (v.setWidth 8 : Byte).toNat ≤ 15 := by
  have hlt := v.isLt
  rw [BitVec.toNat_setWidth_of_le (by decide)]
  omega

/-- The address byte of operands in range is worth 16 times the high nibble plus the low one. -/
theorem packAddress_toNat {t i : Byte} (ht : t.toNat ≤ 15) (hi : i.toNat ≤ 15) :
    (packAddress t i).toNat = 16 * t.toNat + i.toNat := by
  have e : (packAddress t i).toNat = (t.toNat <<< 4) % 2 ^ 8 ||| i.toNat := by simp [packAddress]
  rw [e, Nat.mod_eq_of_lt (by rw [Nat.shiftLeft_eq]; omega),
    ← Nat.shiftLeft_add_eq_or_of_lt (by omega), Nat.shiftLeft_eq]
  omega

/-- Classes in range with one low nibble and one address are the same. -/
theorem packAddress_class_injective {t t' i : Byte} (ht : t.toNat ≤ 15) (ht' : t'.toNat ≤ 15) (hi : i.toNat ≤ 15)
    (h : packAddress t i = packAddress t' i) : t = t' := by
  have e := congrArg BitVec.toNat h
  rw [packAddress_toNat ht hi, packAddress_toNat ht' hi] at e
  exact BitVec.eq_of_toNat_eq (by omega)

/-- ADRENC of operands in range answers their address byte. -/
theorem exec_adrenc_of_le {s : State} (hs : unlatched s) {t i : Byte} (ht : t.toNat ≤ 15) (hi : i.toNat ≤ 15) :
    exec (.adrenc t i) s = .next (answered s 0x00#8 [packAddress t i]) := by
  rw [execAdrenc_of_not_fatal hs, if_pos (by simp [nibbleOk, ht, hi]), State.respond_eq_answered]
  rfl

/-! ### Codes and command bytes (R7, 42_command.md R75) -/

/-- A 6-bit value carried in an operand byte is in range. -/
theorem setWidth_sixBit_le (v : BitVec 6) : (v.setWidth 8 : Byte).toNat ≤ 63 := by
  have hlt := v.isLt
  rw [BitVec.toNat_setWidth_of_le (by decide)]
  omega

/-- A byte of at most 63 is its own low six bits. -/
theorem commandCode_of_le {opc : Byte} (h : opc.toNat ≤ 63) : commandCode opc = opc := by
  apply BitVec.eq_of_toNat_eq
  calc (commandCode opc).toNat = opc.toNat &&& 2 ^ 6 - 1 := by simp [commandCode]
    _ = opc.toNat % 2 ^ 6 := Nat.and_two_pow_sub_one_eq_mod _ 6
    _ = opc.toNat := Nat.mod_eq_of_lt (by omega)

/-- The flags of a command byte stand above its code. -/
theorem commandCode_packCommand (dp : Bool) (dir : Direction) {opc : Byte} (h : opc.toNat ≤ 63) :
    commandCode (packCommand dp dir opc) = opc := by
  have hdp : (byteOfBool dp <<< 7) &&& 0x3F#8 = 0x00#8 := by cases dp <;> decide
  have hdir : (byteOfDirection dir <<< 6) &&& 0x3F#8 = 0x00#8 := by cases dir <;> decide
  have hopc : opc &&& 0x3F#8 = opc := commandCode_of_le h
  simp only [commandCode, packCommand, BitVec.and_or_distrib_right, hdp, hdir, hopc, BitVec.zero_or]

/-- CMDENC of a code in range answers its command byte. -/
theorem exec_cmdenc_of_le {s : State} (hs : unlatched s) (dp : Bool) (dir : Direction) {opc : Byte}
    (h : opc.toNat ≤ 63) :
    exec (.cmdenc dp dir opc) s = .next (answered s 0x00#8 [packCommand dp dir opc]) := by
  rw [execCmdenc_of_not_fatal hs, if_pos (by simp [sixBitOk, h]), State.respond_eq_answered]
  rfl

/-- Two classes whose ADRENC answers are the same, for one low nibble, are one class. -/
theorem class_eq_of_same_address (devt : Config.DevtMap) {s t t' : State} (hs : unlatched s) {c c' : DeviceClass}
    {n a : Byte} (hn : n.toNat ≤ 15)
    (h : responds (.adrenc ((devt.value c).setWidth 8) n) s t [0x00#8, a])
    (h' : responds (.adrenc ((devt.value c').setWidth 8) n) s t' [0x00#8, a]) : c = c' := by
  have hc := setWidth_nibble_le (devt.value c)
  have hc' := setWidth_nibble_le (devt.value c')
  have e := response_of_answered (exec_adrenc_of_le hs hc hn) h
  have e' := response_of_answered (exec_adrenc_of_le hs hc' hn) h'
  have hpack : packAddress ((devt.value c).setWidth 8) n = packAddress ((devt.value c').setWidth 8) n := by
    simpa using e.symm.trans e'
  have hbyte := congrArg BitVec.toNat (packAddress_class_injective hc hc' hn hpack)
  rw [BitVec.toNat_setWidth_of_le (by decide), BitVec.toNat_setWidth_of_le (by decide)] at hbyte
  exact devt.injective (BitVec.eq_of_toNat_eq hbyte)

/-- Settles O34: every 4-bit and 6-bit value is an operand in range, and the packed bytes keep their fields apart. -/
theorem vocabularyAndClassesAreEncodable : Obligations.VocabularyAndClassesAreEncodable := by
  intro opc devt s hs
  refine ⟨?_, rfl, fun c hc => classValue_le_of_ne_hub devt hc,
    fun c c' n t t' a hn h h' => class_eq_of_same_address devt hs hn h h', fun o dp dir => ?_⟩
  · rw [devt.hubValue]
    exact exec_adrenc_of_le hs (by decide) (by decide)
  · have ho := setWidth_sixBit_le (opc.code o)
    exact ⟨_, _, responds_answered (exec_cmdenc_of_le hs dp dir ho), commandCode_packCommand dp dir ho⟩

/-! ### The invariant at reset (10_state.md R27) -/

/-- The empty buffer after reset keeps R18: every byte of it reads as zero. -/
theorem State.reset_frameInv : State.reset.FrameInv :=
  ⟨rfl, Nat.zero_le _, fun _ _ => rfl⟩

/-- ST after reset is the first of its reachable values. -/
theorem State.reset_statusInv : State.reset.StatusInv := List.mem_cons_self

/-- Settles O3: the reference configuration is legal, and both parts of the invariant hold at reset. -/
theorem invariantHoldsAtReset : Obligations.InvariantHoldsAtReset :=
  ⟨by decide, State.reset_frameInv, State.reset_statusInv⟩

/-! ### An access past the buffer (log 7) -/

/-- FREAD of a frame longer than the buffer stops. -/
theorem exec_fread_fault {s : State} (hs : unlatched s) (h : s.maxLen < s.flen.toNat) :
    exec .fread s = .fault (.outsideBuffer 0 s.flen.toNat) := by
  rw [execFread_of_not_fatal hs]
  exact State.withBytes_fault (by omega) _

/-- FPARSE of a frame longer than a buffer of at least one byte stops at the payload. -/
theorem exec_fparse_fault_payload {s : State} (hs : unlatched s) (h : s.maxLen < s.flen.toNat) (h1 : 1 ≤ s.maxLen) :
    exec .fparse s = .fault (.outsideBuffer 1 (s.flen.toNat - 1)) := by
  rw [execFparse_of_not_fatal hs, if_neg (by omega), State.withBytes_eq (by omega)]
  exact State.withBytes_fault (by omega) _

/-- FPARSE with no buffer at all stops at the command byte (log 9). -/
theorem exec_fparse_fault_command {s : State} (hs : unlatched s) (h : s.flen.toNat ≠ 0) (h0 : s.maxLen = 0) :
    exec .fparse s = .fault (.outsideBuffer 0 1) := by
  rw [execFparse_of_not_fatal hs, if_neg h]
  exact State.withBytes_fault (by omega) _

/-- TSGET stops when FLEN admits the timestamp and the buffer does not hold it. -/
theorem exec_tsget_fault {s : State} (hs : unlatched s) (h : 7 ≤ s.flen.toNat) (h7 : s.maxLen < 7) :
    exec .tsget s = .fault (.outsideBuffer 1 6) := by
  rw [execTsget_of_not_fatal hs, if_neg (by omega)]
  exact State.withBytes_fault (a := 1) (by omega) _

/-- V16GET stops when FLEN admits the value and the buffer does not hold it. -/
theorem exec_v16get_fault {s : State} (hs : unlatched s) (h : 3 ≤ s.flen.toNat) (h3 : s.maxLen < 3) :
    exec .v16get s = .fault (.outsideBuffer 1 2) := by
  rw [execV16get_of_not_fatal hs, if_neg (by omega)]
  exact State.withBytes_fault (a := 1) (by omega) _

/-- Settles O26: each reader's first access that does not fit is the fault. -/
theorem accessPastTheBufferFaults : Obligations.AccessPastTheBufferFaults := by
  intro s hs h
  exact ⟨exec_fread_fault hs h, exec_fparse_fault_payload hs h, exec_fparse_fault_command hs (by omega),
    exec_tsget_fault hs, exec_v16get_fault hs⟩

end Sys2Proof.Machine
end

section
/-! PROOFS. The statements of 10_state.md: reset (R27), the buffer's invariant kept by every step (R18), no step that stops (R23, R35), the response as a function of the request and the block (R25), and the empty buffer (70_reset_and_hazards.md R126). -/

namespace Sys2Proof.Machine

open Sys2Proof.Reading

/-! ### Everything a step can do -/

/-- A packet that carries no instruction writes at most ST.ERR and is answered IllegalRequest or Halted (30_encoding.md R56 to R59). -/
theorem rejectRequest_next_cases {packet : List Byte} {s t : State} (h : s.rejectRequest packet = .next t) :
    (packet.head? = some Mnemonic.status.opsel ∧ t = s.emit [Status.code .illegalRequest]) ∨
    (packet.head? ≠ some Mnemonic.status.opsel ∧ s.fatal = true ∧ t = s.emit [Status.code .halted]) ∨
    (packet.head? ≠ some Mnemonic.status.opsel ∧ s.fatal = false ∧
      t = (s.setErr .illegalRequest).emit [Status.code .illegalRequest]) := by
  unfold State.rejectRequest at h
  split at h
  · next hop => cases h; exact .inl ⟨hop, rfl⟩
  · next hop =>
    cases hf : s.fatal
    · rw [State.unlessHalted_of_not_fatal hf] at h
      cases h; exact .inr (.inr ⟨hop, rfl, rfl⟩)
    · rw [State.unlessHalted_of_fatal hf] at h
      cases h; exact .inr (.inl ⟨hop, rfl, rfl⟩)

/-- A request is nothing (the empty packet), an instruction's meaning, or rejected. -/
theorem serveRequest_cases (packet : List Byte) (s : State) :
    (decode packet = .error .emptyPacket ∧ serveRequest packet s = .next s) ∨
    (∃ i, decode packet = .ok i ∧ serveRequest packet s = exec i s) ∨
    (∃ e, decode packet = .error e ∧ e ≠ .emptyPacket ∧ serveRequest packet s = s.rejectRequest packet) := by
  cases hd : decode packet with
  | ok i => exact .inr (.inl ⟨i, rfl, serveRequest_ok hd s⟩)
  | error e =>
    by_cases he : e = .emptyPacket
    · subst he
      exact .inl ⟨rfl, by simp [serveRequest, hd]⟩
    · exact .inr (.inr ⟨e, rfl, he, serveRequest_error hd he s⟩)

/-- A step waits, resets the block, or serves a request. -/
theorem step_cases (s : State) :
    (s.pending = [] ∧ step s = .next s) ∨
    (∃ e rest, s.pending = e :: rest ∧ step s = .next ({ s with pending := rest } : State).applyReset) ∨
    (∃ packet rest, s.pending = .request packet :: rest ∧
      step s = serveRequest packet { s with pending := rest }) := by
  cases hp : s.pending with
  | nil => exact .inl ⟨rfl, step_idle hp⟩
  | cons e rest =>
    refine .inr ?_
    have hstep := step_event hp
    cases e with
    | request packet => exact .inr ⟨packet, rest, rfl, hstep⟩
    | reset => exact .inl ⟨_, rest, rfl, hstep⟩
    | resetDuring packet => exact .inl ⟨_, rest, rfl, hstep⟩

/-! ### Reset (R27) -/

/-- The buffer of a block just reset reads as zero everywhere. -/
theorem State.applyReset_readByte (s : State) (k : Nat) : s.applyReset.readByte k = 0x00#8 := rfl

/-- Settles O1: the step that serves a reset is `applyReset`, whose fields are those of the reset state. -/
theorem resetClearsBufferLengthAndStatus : Obligations.ResetClearsBufferLengthAndStatus :=
  ⟨fun _ => rfl, State.reset_flen, State.reset_st, State.reset_cfgMaxLen, fun _ _ h =>
    ⟨_, step_event h, State.applyReset_readByte _, State.applyReset_flen _, State.applyReset_st _,
      State.applyReset_cfgMaxLen _⟩⟩

/-! ### What a step does to the buffer -/

/-- Everything a step can do to F and FLEN: leave them, put a frame that fits there, or clear them by reset. -/
inductive BufferChange (s t : State) : Prop where
  | kept (hframe : t.frame = s.frame) (hflen : t.flen = s.flen)
  | stored (f : List Byte) (hf : f.length ≤ s.maxLen)
      (hframe : t.frame = s.frame.writeN 0 (padFrame s.maxLen f)) (hflen : t.flen = BitVec.ofNat 8 f.length)
  | cleared (hframe : t.frame = []) (hflen : t.flen = 0x00#8)

/-- An operation keeps F and FLEN, or it is a writer that puts a frame that fits in the buffer. -/
theorem exec_buffer_cases {i : Instr} {s t : State} (h : exec i s = .next t) :
    (t.frame = s.frame ∧ t.flen = s.flen) ∨
    (i.mnemonic ∈ bufferWriters ∧ ∃ f, f.length ≤ s.maxLen ∧ t = s.framed f) := by
  obtain ⟨-, rfl⟩ | ⟨-, -, rfl⟩ | ⟨-, -, heff⟩ := exec_next_cases h
  · exact .inl ⟨rfl, rfl⟩
  · exact .inl ⟨rfl, rfl⟩
  · cases heff with
    | responded _ _ _ _ _ ht => subst ht; exact .inl ⟨rfl, rfl⟩
    | constantRefused _ ht => subst ht; exact .inl ⟨rfl, rfl⟩
    | stored hm f hf ht => exact .inr ⟨hm, f, hf, ht⟩

/-- No operation writes CFG.MAXLEN (R23). -/
theorem exec_cfgMaxLen {i : Instr} {s t : State} (h : exec i s = .next t) : t.cfgMaxLen = s.cfgMaxLen := by
  obtain ⟨-, rfl⟩ | ⟨-, -, rfl⟩ | ⟨-, -, heff⟩ := exec_next_cases h
  · rfl
  · rfl
  · cases heff with
    | responded _ _ _ _ _ ht => subst ht; rfl
    | constantRefused _ ht => subst ht; rfl
    | stored _ _ _ ht => subst ht; rfl

/-- A rejected request leaves the buffer and CFG.MAXLEN. -/
theorem rejectRequest_keeps_buffer {packet : List Byte} {s t : State} (h : s.rejectRequest packet = .next t) :
    t.frame = s.frame ∧ t.flen = s.flen ∧ t.cfgMaxLen = s.cfgMaxLen := by
  obtain ⟨-, rfl⟩ | ⟨-, -, rfl⟩ | ⟨-, -, rfl⟩ := rejectRequest_next_cases h <;> exact ⟨rfl, rfl, rfl⟩

/-- Serving a request changes the buffer as its operation does, and never CFG.MAXLEN. -/
theorem serveRequest_bufferChange {packet : List Byte} {s t : State} (h : serveRequest packet s = .next t) :
    BufferChange s t ∧ t.cfgMaxLen = s.cfgMaxLen := by
  obtain ⟨-, hs⟩ | ⟨i, -, hs⟩ | ⟨e, -, -, hs⟩ := serveRequest_cases packet s <;> rw [hs] at h
  · cases h; exact ⟨.kept rfl rfl, rfl⟩
  · refine ⟨?_, exec_cfgMaxLen h⟩
    obtain ⟨hframe, hflen⟩ | ⟨-, f, hf, rfl⟩ := exec_buffer_cases h
    · exact .kept hframe hflen
    · exact .stored f hf rfl rfl
  · obtain ⟨hframe, hflen, hcfg⟩ := rejectRequest_keeps_buffer h
    exact ⟨.kept hframe hflen, hcfg⟩

/-- Every step changes the buffer in one of the three ways. -/
theorem step_bufferChange {s t : State} (h : step s = .next t) : BufferChange s t ∧ t.cfgMaxLen = s.cfgMaxLen := by
  obtain ⟨-, hs⟩ | ⟨_, rest, -, hs⟩ | ⟨packet, rest, -, hs⟩ := step_cases s <;> rw [hs] at h
  · cases h; exact ⟨.kept rfl rfl, rfl⟩
  · cases h; exact ⟨.cleared rfl rfl, rfl⟩
  · obtain ⟨hchange, hcfg⟩ := serveRequest_bufferChange h
    refine ⟨?_, hcfg⟩
    cases hchange with
    | kept hframe hflen => exact .kept hframe hflen
    | stored f hf hframe hflen => exact .stored f hf hframe hflen
    | cleared hframe hflen => exact .cleared hframe hflen

/-! ### The buffer's invariant is kept (R18) -/

/-- MAXLEN is one byte, so the length of a frame that fits is held in FLEN exactly. -/
theorem State.toNat_ofNat_length {s : State} {f : List Byte} (hf : f.length ≤ s.maxLen) :
    (BitVec.ofNat 8 f.length).toNat = f.length := by
  have hmax : s.maxLen < 256 := s.cfgMaxLen.isLt
  rw [BitVec.toNat_ofNat, Nat.mod_eq_of_lt (by omega)]

/-- Each of the three ways keeps the invariant; for a stored frame the padding is the zero tail, and past MAXLEN the old tail stands. -/
theorem State.FrameInv.of_bufferChange {s t : State} (hs : s.FrameInv) (h : BufferChange s t)
    (hcfg : t.cfgMaxLen = s.cfgMaxLen) : t.FrameInv := by
  obtain ⟨hwf, hlen, htail⟩ := hs
  have hmax : t.maxLen = s.maxLen := congrArg BitVec.toNat hcfg
  unfold State.FrameInv State.readByte
  cases h with
  | kept hframe hflen =>
    rw [hframe, hflen, hmax]
    exact ⟨hwf, hlen, htail⟩
  | stored f hf hframe hflen =>
    rw [hframe, hflen, hmax, State.toNat_ofNat_length hf]
    refine ⟨Memory.writeN_wf hwf _ _, hf, fun k hk => ?_⟩
    rw [Memory.read_storeFrame hwf hf]
    split
    · exact List.getD_eq_default f _ hk
    · exact htail k (by omega)
  | cleared hframe hflen =>
    rw [hframe, hflen]
    exact ⟨rfl, Nat.zero_le _, fun _ _ => rfl⟩

/-- Settles O4, from the three ways a step can change the buffer. -/
theorem frameInvariantKeptByEveryStep : Obligations.FrameInvariantKeptByEveryStep := by
  refine ⟨State.reset_frameInv, fun s t hs h => ?_⟩
  obtain ⟨hchange, hcfg⟩ := step_bufferChange h
  exact hs.of_bufferChange hchange hcfg

/-! ### No step stops (20_memory.md R35) -/

/-- The result is a next state: no fault and no refusal. -/
def Answers (r : Result) : Prop := ∃ t, r = .next t

theorem Answers.respond (s : State) (st : Status) (rs : List Byte) : Answers (s.respond st rs) := ⟨_, rfl⟩

theorem Answers.raise (s : State) (e : Status) : Answers (s.raise e) := ⟨_, rfl⟩

theorem Answers.respondOnly (s : State) (st : Status) (rs : List Byte) : Answers (s.respondOnly st rs) := ⟨_, rfl⟩

theorem Answers.ite {c : Prop} [Decidable c] {r r' : Result} (h : c → Answers r) (h' : ¬ c → Answers r') :
    Answers (if c then r else r') := by
  split
  · next hc => exact h hc
  · next hc => exact h' hc

theorem Answers.unlessHalted {s : State} {op : State → Result} (h : Answers (op s)) : Answers (s.unlessHalted op) :=
  .ite (fun _ => .respondOnly s _ _) fun _ => h

/-- A frame that fits is stored and answered. -/
theorem Answers.replaceFrame {s : State} {f : List Byte} (h : f.length ≤ s.maxLen) : Answers (s.replaceFrame f) :=
  ⟨_, State.replaceFrame_eq h⟩

/-- A read inside the buffer goes on. -/
theorem Answers.withBytes {s : State} {a n : Nat} {k : List Byte → Result} (h : a + n ≤ s.maxLen)
    (hk : ∀ bs, Answers (k bs)) : Answers (s.withBytes a n k) := by
  rw [State.withBytes_eq h]
  exact hk _

/-- Without the latch and with FLEN within the buffer no operation stops: the writers test the capacity first, and the readers stay below FLEN. -/
theorem exec_answers_of_not_fatal {s : State} (hf : s.fatal = false) (hlen : s.flen.toNat ≤ s.maxLen) (i : Instr) :
    Answers (exec i s) := by
  cases i with
  | bcddec b =>
    rw [execBcddec_of_not_fatal hf]
    exact .respond s _ _
  | bcdenc v =>
    rw [execBcdenc_of_not_fatal hf]
    exact .ite (fun _ => .respond s _ _) fun _ => .raise s _
  | adrenc t i =>
    rw [execAdrenc_of_not_fatal hf]
    exact .ite (fun _ => .respond s _ _) fun _ => .raise s _
  | adrdec a =>
    rw [execAdrdec_of_not_fatal hf]
    exact .respond s _ _
  | cmdenc dp dir opc =>
    rw [execCmdenc_of_not_fatal hf]
    exact .ite (fun _ => .respond s _ _) fun _ => .raise s _
  | cmddec c =>
    rw [execCmddec_of_not_fatal hf]
    exact .respond s _ _
  | fbuild c p =>
    rw [execFbuild_of_not_fatal hf]
    exact .ite (fun _ => .raise s _) fun hfit => .replaceFrame (by rw [List.length_cons]; omega)
  | fload f =>
    rw [execFload_of_not_fatal hf]
    exact .ite (fun _ => .raise s _) fun hfit => .replaceFrame (by omega)
  | fparse =>
    rw [execFparse_of_not_fatal hf]
    exact .ite (fun _ => .raise s _) fun hne =>
      .withBytes (by omega) fun _ => .withBytes (by omega) fun _ => .respond s _ _
  | fread =>
    rw [execFread_of_not_fatal hf]
    exact .withBytes (by omega) fun _ => .respond s _ _
  | fclr =>
    rw [execFclr_of_not_fatal hf]
    exact .replaceFrame (Nat.zero_le _)
  | tsenc t =>
    rw [execTsenc_of_not_fatal hf]
    exact .ite (fun _ => .respond s _ _) fun _ => .raise s _
  | tsdec p =>
    rw [execTsdec_of_not_fatal hf]
    exact .respond s _ _
  | v16enc v =>
    rw [execV16enc_of_not_fatal hf]
    exact .ite (fun _ => .respond s _ _) fun _ => .raise s _
  | v16dec p =>
    rw [execV16dec_of_not_fatal hf]
    exact .respond s _ _
  | tsput c t =>
    rw [execTsput_of_not_fatal hf]
    exact .ite (fun _ => .raise s _) fun hfit =>
      .ite (fun _ => .replaceFrame (Nat.le_of_not_lt hfit)) fun _ => .raise s _
  | tsget =>
    rw [execTsget_of_not_fatal hf]
    exact .ite (fun _ => .raise s _) fun hge =>
      .withBytes (by rw [typedFieldAddress]; omega) fun _ => .respond s _ _
  | v16put c v =>
    rw [execV16put_of_not_fatal hf]
    exact .ite (fun _ => .raise s _) fun hfit =>
      .ite (fun _ => .replaceFrame (Nat.le_of_not_lt hfit)) fun _ => .raise s _
  | v16get =>
    rw [execV16get_of_not_fatal hf]
    exact .ite (fun _ => .raise s _) fun hge =>
      .withBytes (by rw [typedFieldAddress]; omega) fun _ => .respond s _ _
  | status => exact .respondOnly s _ _

/-- With FLEN within the buffer no operation stops. -/
theorem exec_answers {s : State} (hlen : s.flen.toNat ≤ s.maxLen) (i : Instr) : Answers (exec i s) := by
  cases hf : s.fatal
  · exact exec_answers_of_not_fatal hf hlen i
  · by_cases hi : i = .status
    · subst hi
      exact .respondOnly s _ _
    · rw [exec_of_fatal hf hi]
      exact .respondOnly s _ _

/-- With FLEN within the buffer a request never stops the block. -/
theorem serveRequest_answers {s : State} (hlen : s.flen.toNat ≤ s.maxLen) (packet : List Byte) :
    Answers (serveRequest packet s) := by
  obtain ⟨-, hs⟩ | ⟨i, -, hs⟩ | ⟨e, -, -, hs⟩ := serveRequest_cases packet s <;> rw [hs]
  · exact ⟨s, rfl⟩
  · exact exec_answers hlen i
  · exact .ite (fun _ => .respondOnly s _ _) fun _ => .unlessHalted (.raise s _)

/-- With FLEN within the buffer no step stops. -/
theorem step_answers {s : State} (hlen : s.flen.toNat ≤ s.maxLen) : Answers (step s) := by
  obtain ⟨-, hs⟩ | ⟨_, rest, -, hs⟩ | ⟨packet, rest, -, hs⟩ := step_cases s <;> rw [hs]
  · exact ⟨s, rfl⟩
  · exact ⟨_, rfl⟩
  · exact serveRequest_answers (s := { s with pending := rest }) hlen packet

/-- Settles O6: FLEN <= MAXLEN is the part of the invariant that keeps every access inside the buffer. -/
theorem noStepStopsUnderTheFrameInvariant : Obligations.NoStepStopsUnderTheFrameInvariant := by
  rintro s ⟨-, hlen, -⟩
  obtain ⟨t, ht⟩ := step_answers hlen
  obtain ⟨-, hcfg⟩ := step_bufferChange ht
  exact ⟨t, ht, hcfg⟩

/-! ### The response is a function of the request and the block (R25) -/

/-- The block by itself: F, FLEN, ST and CFG, with nothing presented and nothing answered. -/
def State.block (s : State) : State := { s with pending := [], responses := [] }

/-- What a block that served alone has become and answered, put back beside the host's side of `s`. -/
def State.restoreHost (s u : State) : State :=
  { u with pending := s.pending, responses := s.responses ++ u.responses }

/-- `State.restoreHost` on a result; a stop is the same stop. -/
def State.restoreHostIn (s : State) : Result → Result
  | .next u => .next (s.restoreHost u)
  | .fault r => .fault r
  | .refused r => .refused r

/-- States that agree on F, FLEN, ST and CFG are one block. -/
theorem block_eq_of_sameBlock {s s' : State} (h : sameBlock s s') : s.block = s'.block := by
  obtain ⟨hframe, hflen, hst, hcfg⟩ := h
  simp only [State.block, hframe, hflen, hst, hcfg]

theorem State.respond_block (s : State) (st : Status) (rs : List Byte) :
    s.respond st rs = s.restoreHostIn (s.block.respond st rs) := rfl

theorem State.respondOnly_block (s : State) (st : Status) (rs : List Byte) :
    s.respondOnly st rs = s.restoreHostIn (s.block.respondOnly st rs) := rfl

theorem State.raise_block (s : State) (e : Status) : s.raise e = s.restoreHostIn (s.block.raise e) := by
  cases e <;> rfl

theorem State.ite_block {s : State} {c : Prop} [Decidable c] {r₁ r₂ u₁ u₂ : Result}
    (h₁ : r₁ = s.restoreHostIn u₁) (h₂ : r₂ = s.restoreHostIn u₂) :
    (if c then r₁ else r₂) = s.restoreHostIn (if c then u₁ else u₂) := by
  rw [h₁, h₂, apply_ite s.restoreHostIn]

theorem State.unlessHalted_block {s : State} {op : State → Result} (h : op s = s.restoreHostIn (op s.block)) :
    s.unlessHalted op = s.restoreHostIn (s.block.unlessHalted op) :=
  State.ite_block (s.respondOnly_block _ _) h

theorem State.replaceFrame_block (s : State) (f : List Byte) :
    s.replaceFrame f = s.restoreHostIn (s.block.replaceFrame f) := by
  rcases Nat.lt_or_ge s.maxLen f.length with hlong | hfit
  · rw [State.replaceFrame_fault hlong, State.replaceFrame_fault (s := s.block) hlong]
    rfl
  · rw [State.replaceFrame_eq hfit, State.replaceFrame_eq (s := s.block) hfit]
    rfl

theorem State.withBytes_block {s : State} {a n : Nat} {k k' : List Byte → Result}
    (h : ∀ bs, k bs = s.restoreHostIn (k' bs)) :
    s.withBytes a n k = s.restoreHostIn (s.block.withBytes a n k') := by
  by_cases hfit : a + n ≤ s.maxLen
  · rw [State.withBytes_eq hfit, State.withBytes_eq (s := s.block) hfit]
    exact h _
  · rw [State.withBytes_fault hfit, State.withBytes_fault (s := s.block) hfit]
    rfl

/-- Without the latch no operation looks at the host's side: each is put together from shared operations that do not. -/
theorem exec_block_of_not_fatal {s : State} (hf : s.fatal = false) (i : Instr) :
    exec i s = s.restoreHostIn (exec i s.block) := by
  have hb : s.block.fatal = false := hf
  cases i with
  | bcddec b =>
    rw [execBcddec_of_not_fatal hf, execBcddec_of_not_fatal hb]
    exact s.respond_block _ _
  | bcdenc v =>
    rw [execBcdenc_of_not_fatal hf, execBcdenc_of_not_fatal hb]
    exact State.ite_block (s.respond_block _ _) (s.raise_block _)
  | adrenc t i =>
    rw [execAdrenc_of_not_fatal hf, execAdrenc_of_not_fatal hb]
    exact State.ite_block (s.respond_block _ _) (s.raise_block _)
  | adrdec a =>
    rw [execAdrdec_of_not_fatal hf, execAdrdec_of_not_fatal hb]
    exact s.respond_block _ _
  | cmdenc dp dir opc =>
    rw [execCmdenc_of_not_fatal hf, execCmdenc_of_not_fatal hb]
    exact State.ite_block (s.respond_block _ _) (s.raise_block _)
  | cmddec c =>
    rw [execCmddec_of_not_fatal hf, execCmddec_of_not_fatal hb]
    exact s.respond_block _ _
  | fbuild c p =>
    rw [execFbuild_of_not_fatal hf, execFbuild_of_not_fatal hb]
    exact State.ite_block (s.raise_block _) (s.replaceFrame_block _)
  | fload f =>
    rw [execFload_of_not_fatal hf, execFload_of_not_fatal hb]
    exact State.ite_block (s.raise_block _) (s.replaceFrame_block _)
  | fparse =>
    rw [execFparse_of_not_fatal hf, execFparse_of_not_fatal hb]
    exact State.ite_block (s.raise_block _)
      (State.withBytes_block fun _ => State.withBytes_block fun _ => s.respond_block _ _)
  | fread =>
    rw [execFread_of_not_fatal hf, execFread_of_not_fatal hb]
    exact State.withBytes_block fun _ => s.respond_block _ _
  | fclr =>
    rw [execFclr_of_not_fatal hf, execFclr_of_not_fatal hb]
    exact s.replaceFrame_block _
  | tsenc t =>
    rw [execTsenc_of_not_fatal hf, execTsenc_of_not_fatal hb]
    exact State.ite_block (s.respond_block _ _) (s.raise_block _)
  | tsdec p =>
    rw [execTsdec_of_not_fatal hf, execTsdec_of_not_fatal hb]
    exact s.respond_block _ _
  | v16enc v =>
    rw [execV16enc_of_not_fatal hf, execV16enc_of_not_fatal hb]
    exact State.ite_block (s.respond_block _ _) (s.raise_block _)
  | v16dec p =>
    rw [execV16dec_of_not_fatal hf, execV16dec_of_not_fatal hb]
    exact s.respond_block _ _
  | tsput c t =>
    rw [execTsput_of_not_fatal hf, execTsput_of_not_fatal hb]
    exact State.ite_block (s.raise_block _)
      (State.ite_block (s.replaceFrame_block _) (s.raise_block _))
  | tsget =>
    rw [execTsget_of_not_fatal hf, execTsget_of_not_fatal hb]
    exact State.ite_block (s.raise_block _)
      (State.withBytes_block fun _ => s.respond_block _ _)
  | v16put c v =>
    rw [execV16put_of_not_fatal hf, execV16put_of_not_fatal hb]
    exact State.ite_block (s.raise_block _)
      (State.ite_block (s.replaceFrame_block _) (s.raise_block _))
  | v16get =>
    rw [execV16get_of_not_fatal hf, execV16get_of_not_fatal hb]
    exact State.ite_block (s.raise_block _)
      (State.withBytes_block fun _ => s.respond_block _ _)
  | status => exact s.respondOnly_block _ _

/-- No operation looks at the host's side: it acts on the block alone, and its response is appended. -/
theorem exec_block (i : Instr) (s : State) : exec i s = s.restoreHostIn (exec i s.block) := by
  cases hf : s.fatal
  · exact exec_block_of_not_fatal hf i
  · by_cases hi : i = .status
    · subst hi
      exact s.respondOnly_block _ _
    · rw [exec_of_fatal hf hi, exec_of_fatal (s := s.block) hf hi]
      exact s.respondOnly_block _ _

/-- Rejecting a packet acts on the block alone as well. -/
theorem rejectRequest_block (packet : List Byte) (s : State) :
    s.rejectRequest packet = s.restoreHostIn (s.block.rejectRequest packet) :=
  State.ite_block (s.respondOnly_block _ _) (State.unlessHalted_block (s.raise_block _))

/-- The empty packet answers nothing, so the host's side is put back as it was. -/
theorem State.restoreHost_block (s : State) : s.restoreHost s.block = s := by
  simp [State.restoreHost, State.block]

/-- Serving a request acts on the block alone. -/
theorem serveRequest_block (packet : List Byte) (s : State) :
    serveRequest packet s = s.restoreHostIn (serveRequest packet s.block) := by
  cases hd : decode packet with
  | ok i => simpa only [serveRequest_ok hd] using exec_block i s
  | error e =>
    by_cases he : e = .emptyPacket
    · subst he
      simp [serveRequest, hd, State.restoreHostIn, State.restoreHost_block]
    · simpa only [serveRequest_error hd he] using rejectRequest_block packet s

/-- A request's step, by what the block alone does with the packet. -/
theorem step_request {s : State} {packet : List Byte} {rest : List HostEvent}
    (h : s.pending = .request packet :: rest) :
    step s = ({ s with pending := rest } : State).restoreHostIn (serveRequest packet s.block) :=
  (step_event h).trans (serveRequest_block packet { s with pending := rest })

/-- A result that is a next state once the host's side is put back was one before. -/
theorem State.restoreHostIn_eq_next {s t : State} {r : Result} (h : s.restoreHostIn r = .next t) :
    ∃ u, r = .next u ∧ t = s.restoreHost u := by
  cases r with
  | next u => cases h; exact ⟨u, rfl, rfl⟩
  | fault f => cases h
  | refused f => cases h

/-- Settles O22: both states serve the packet as the one block they share, and the answers are the block's. -/
theorem responseDependsOnRequestAndBlockOnly : Obligations.ResponseDependsOnRequestAndBlockOnly := by
  intro s s' t packet rest rest' hsame hp hp' ht
  rw [step_request hp] at ht
  obtain ⟨u, hu, rfl⟩ := State.restoreHostIn_eq_next ht
  have ht' : step s' = .next (({ s' with pending := rest' } : State).restoreHost u) := by
    rw [step_request hp', ← block_eq_of_sameBlock hsame, hu]
    rfl
  exact ⟨_, u.responses, ht', ⟨rfl, rfl, rfl, rfl⟩, rfl, rfl⟩

/-! ### The empty buffer (70_reset_and_hazards.md R126) -/

/-- An error other than ConfigurationError is `answered` of its code, with no results. -/
theorem State.raise_eq_answered (s : State) {e : Status} (h : e ≠ .configurationError) :
    s.raise e = .next (answered s e.code []) :=
  State.raise_eq s h

section
variable {s : State} (hs : unlatched s)
include hs

/-- FPARSE of the empty buffer answers BadLength. -/
theorem exec_fparse_empty (h : s.flen.toNat = 0) : exec .fparse s = .next (answered s 0x04#8 []) := by
  rw [execFparse_of_not_fatal hs, if_pos h]
  exact s.raise_eq_answered (by decide)

/-- TSGET of a frame shorter than a timestamp frame answers BadLength. -/
theorem exec_tsget_short (h : s.flen.toNat < 7) : exec .tsget s = .next (answered s 0x04#8 []) := by
  rw [execTsget_of_not_fatal hs, if_pos h]
  exact s.raise_eq_answered (by decide)

/-- V16GET of a frame shorter than a value frame answers BadLength. -/
theorem exec_v16get_short (h : s.flen.toNat < 3) : exec .v16get s = .next (answered s 0x04#8 []) := by
  rw [execV16get_of_not_fatal hs, if_pos h]
  exact s.raise_eq_answered (by decide)

/-- FREAD of a frame within the buffer answers its length and its bytes. -/
theorem exec_fread_of_le (h : s.flen.toNat ≤ s.maxLen) :
    exec .fread s = .next (answered s 0x00#8 (s.flen :: s.frame.readN 0 s.flen.toNat)) := by
  rw [execFread_of_not_fatal hs, State.withBytes_eq (by omega)]
  rfl

end

/-- FCLR never leaves a frame in an empty buffer: what it stores, when it stores, is empty. -/
theorem exec_fclr_flen {s t : State} (h : exec .fclr s = .next t) (hs : s.flen = 0x00#8) : t.flen = 0x00#8 := by
  cases hf : s.fatal
  · rw [execFclr_of_not_fatal hf, State.replaceFrame_eq (Nat.zero_le _)] at h
    cases h; rfl
  · rw [exec_of_fatal hf (by decide)] at h
    cases h; exact hs

/-- FCLR is the one instruction of its row. -/
theorem Instr.eq_fclr_of_mnemonic {i : Instr} (h : i.mnemonic = .fclr) : i = .fclr := by
  cases i with
  | fclr => rfl
  | _ => cases h

/-- An operation after which an empty buffer is not empty writes the buffer and is not FCLR. -/
theorem mnemonic_of_buffer_filled {i : Instr} {s t : State} (hs : s.flen = 0x00#8) (h : exec i s = .next t)
    (ht : t.flen ≠ 0x00#8) : i.mnemonic ∈ [Mnemonic.fbuild, .fload, .tsput, .v16put] := by
  obtain ⟨-, hflen⟩ | ⟨hwriter, -⟩ := exec_buffer_cases h
  · exact absurd (hflen.trans hs) ht
  · have hne : i.mnemonic ≠ .fclr := by
      intro hm
      rw [Instr.eq_fclr_of_mnemonic hm] at h
      exact ht (exec_fclr_flen h hs)
    simpa [bufferWriters, hne] using hwriter

/-- Settles O27: FLEN = 0 is below every reader's least length, and only a writer with a frame changes it. -/
theorem emptyBufferAnswersUntilAFrameIsPut : Obligations.EmptyBufferAnswersUntilAFrameIsPut := by
  refine ⟨State.reset_flen, fun s hs hflen => ?_, fun i s t => mnemonic_of_buffer_filled⟩
  have hzero : s.flen.toNat = 0 := congrArg BitVec.toNat hflen
  have hread := exec_fread_of_le hs (by omega)
  rw [hflen] at hread
  exact ⟨exec_fparse_empty hs hzero, exec_tsget_short hs (by omega), exec_v16get_short hs (by omega), hread⟩

end Sys2Proof.Machine
end

section
/-! PROOFS. The statements of 20_memory.md: a request that decodes is served whole as its instruction (R39), and reading the buffer has no side effect (R37). -/

namespace Sys2Proof.Machine

open Sys2Proof.Reading

/-! ### A request is served as its instruction (R39) -/

/-- Settles O11: the step serves the oldest event, and a packet that decodes is served by its instruction. -/
theorem stepRunsTheDecodedInstruction : Obligations.StepRunsTheDecodedInstruction := by
  intro s packet rest i hp hd
  calc step s = serveRequest packet { s with pending := rest } := step_event hp
    _ = exec i { s with pending := rest } := serveRequest_ok hd _

/-! ### What a read of the buffer changes (R37) -/

/-- No reader of the buffer writes it (10_state.md R28). -/
theorem not_mem_bufferWriters_of_mem_bufferReaders : ∀ m ∈ bufferReaders, m ∉ bufferWriters := by decide

/-- No reader of the buffer can end with ConfigurationError (60_exceptions.md R101). -/
theorem not_mem_constantEncoders_of_mem_bufferReaders : ∀ m ∈ bufferReaders, m ∉ constantEncoders := by decide

/-- STATUS does not read the buffer. -/
theorem ne_status_of_mem_bufferReaders {i : Instr} (hi : i.mnemonic ∈ bufferReaders) : i ≠ .status := by
  rintro rfl
  exact absurd hi (by decide)

/-- The instructions of the rows that read the buffer. -/
theorem Instr.eq_of_mem_bufferReaders {i : Instr} (hi : i.mnemonic ∈ bufferReaders) :
    i = .fparse ∨ i = .fread ∨ i = .tsget ∨ i = .v16get := by
  cases i <;> simp [bufferReaders, Instr.mnemonic] at hi ⊢

/-- Writing ST.ERR leaves ST.FATAL and the reserved bits (10_state.md R20). -/
theorem State.setErr_upperBits (s : State) (e : Status) : (s.setErr e).st &&& 0xF8#8 = s.st &&& 0xF8#8 := by
  have hcode : e.code &&& 0xF8#8 = 0#8 := by cases e <;> rfl
  rw [State.setErr_st, BitVec.and_or_distrib_right, hcode, BitVec.or_zero, BitVec.and_assoc, BitVec.and_self]

/-- Everything a reader of the buffer can do when it answers a next state: be refused, or write ST.ERR and respond. -/
theorem exec_reader_next_cases {i : Instr} {s t : State} (hi : i.mnemonic ∈ bufferReaders) (h : exec i s = .next t) :
    t = s.emit [Status.code .halted] ∨ ∃ (e : Status) (rs : List Byte), t = (s.setErr e).emit (e.code :: rs) := by
  obtain ⟨hstatus, -⟩ | ⟨-, -, ht⟩ | ⟨-, -, heff⟩ := exec_next_cases h
  · exact absurd hstatus (ne_status_of_mem_bufferReaders hi)
  · exact .inl ht
  · cases heff with
    | responded e rs _ _ _ ht => exact .inr ⟨e, rs, ht⟩
    | constantRefused hm => exact absurd hm (not_mem_constantEncoders_of_mem_bufferReaders _ hi)
    | stored hm => exact absurd hm (not_mem_bufferWriters_of_mem_bufferReaders _ hi)

/-! ### The same buffer gives the same answer (R37) -/

/-- The results of one operation in two states: the same response to both, or the same fault. -/
inductive AnswersAlike (s u : State) : Result → Result → Prop where
  | responded {t w : State} (r : List Byte) (ht : t.responses = s.responses ++ [r])
      (hw : w.responses = u.responses ++ [r]) : AnswersAlike s u (.next t) (.next w)
  | stopped (f : Fault) : AnswersAlike s u (.fault f) (.fault f)

section
variable {s u : State}

theorem AnswersAlike.respond (e : Status) (rs : List Byte) : AnswersAlike s u (s.respond e rs) (u.respond e rs) :=
  .responded (e.code :: rs) rfl rfl

theorem AnswersAlike.respondOnly (e : Status) (rs : List Byte) :
    AnswersAlike s u (s.respondOnly e rs) (u.respondOnly e rs) :=
  .responded (e.code :: rs) rfl rfl

theorem AnswersAlike.raise (e : Status) : AnswersAlike s u (s.raise e) (u.raise e) := by
  by_cases he : e = .configurationError
  · subst he
    exact .responded [Status.code .configurationError] rfl rfl
  · rw [State.raise_eq s he, State.raise_eq u he]
    exact .respond e []

theorem AnswersAlike.ite {c : Prop} [Decidable c] {r₁ r₂ r₁' r₂' : Result} (h₁ : AnswersAlike s u r₁ r₁')
    (h₂ : AnswersAlike s u r₂ r₂') : AnswersAlike s u (if c then r₁ else r₂) (if c then r₁' else r₂') := by
  split
  · exact h₁
  · exact h₂

/-- A read of the same bytes, under the same MAXLEN, goes on with them in both states or stops in both. -/
theorem AnswersAlike.withBytes {a n : Nat} {k k' : List Byte → Result} (hcfg : u.cfgMaxLen = s.cfgMaxLen)
    (hbytes : u.frame.readN a n = s.frame.readN a n) (hk : ∀ bs, AnswersAlike s u (k bs) (k' bs)) :
    AnswersAlike s u (s.withBytes a n k) (u.withBytes a n k') := by
  have hmax : u.maxLen = s.maxLen := congrArg BitVec.toNat hcfg
  by_cases hfit : a + n ≤ s.maxLen
  · rw [State.withBytes_eq hfit, State.withBytes_eq (hmax ▸ hfit), hbytes]
    exact hk _
  · rw [State.withBytes_fault hfit, State.withBytes_fault (hmax ▸ hfit)]
    exact .stopped _

/-- What responds in one state responds with the same bytes in a state that answers alike. -/
theorem AnswersAlike.exists_responds {i : Instr} {t : State} {r : List Byte} (h : AnswersAlike s u (exec i s) (exec i u))
    (hr : responds i s t r) : ∃ w, responds i u w r := by
  obtain ⟨hexec, hresp⟩ := hr
  rw [hexec] at h
  cases hu : exec i u with
  | next w =>
    rw [hu] at h
    obtain ⟨r', ht, hw⟩ := h
    obtain rfl : r' = r := by simpa using ht.symm.trans hresp
    exact ⟨w, hu, hw⟩
  | fault f => rw [hu] at h; cases h
  | refused f => rw [hu] at h; cases h

/-- A reader of the buffer looks at F, FLEN, CFG.MAXLEN and the latch alone. -/
theorem exec_reader_answersAlike {i : Instr} (hi : i.mnemonic ∈ bufferReaders) (hframe : u.frame = s.frame)
    (hflen : u.flen = s.flen) (hcfg : u.cfgMaxLen = s.cfgMaxLen) (hfatal : u.fatal = s.fatal) :
    AnswersAlike s u (exec i s) (exec i u) := by
  have hbytes (a n : Nat) : u.frame.readN a n = s.frame.readN a n := by rw [hframe]
  cases hs : s.fatal
  · have hu : u.fatal = false := hfatal.trans hs
    obtain rfl | rfl | rfl | rfl := Instr.eq_of_mem_bufferReaders hi
    · rw [execFparse_of_not_fatal hs, execFparse_of_not_fatal hu, hflen]
      exact .ite (.raise _) (.withBytes hcfg (hbytes _ _) fun _ => .withBytes hcfg (hbytes _ _) fun _ => .respond _ _)
    · rw [execFread_of_not_fatal hs, execFread_of_not_fatal hu, hflen]
      exact .withBytes hcfg (hbytes _ _) fun _ => .respond _ _
    · rw [execTsget_of_not_fatal hs, execTsget_of_not_fatal hu, hflen]
      exact .ite (.raise _) (.withBytes hcfg (hbytes _ _) fun _ => .respond _ _)
    · rw [execV16get_of_not_fatal hs, execV16get_of_not_fatal hu, hflen]
      exact .ite (.raise _) (.withBytes hcfg (hbytes _ _) fun _ => .respond _ _)
  · have hne := ne_status_of_mem_bufferReaders hi
    rw [exec_of_fatal hs hne, exec_of_fatal (hfatal.trans hs) hne]
    exact .respondOnly _ _

end

/-- In every state with the same buffer, CFG and latch a reader responds with the same bytes. -/
theorem reader_responds_again {i : Instr} {s t u : State} {r : List Byte} (hi : i.mnemonic ∈ bufferReaders)
    (hr : responds i s t r) (hframe : u.frame = s.frame) (hflen : u.flen = s.flen) (hcfg : u.cfgMaxLen = s.cfgMaxLen)
    (hlatch : latched u ↔ latched s) : ∃ w, responds i u w r :=
  (exec_reader_answersAlike hi hframe hflen hcfg (Bool.eq_iff_iff.mpr hlatch)).exists_responds hr

/-- Settles O23: a reader writes ST.ERR at most, and its response comes from the buffer, CFG and the latch alone. -/
theorem readingTheBufferHasNoSideEffect : Obligations.ReadingTheBufferHasNoSideEffect := by
  intro i s t hi h
  obtain rfl | ⟨e, rs, rfl⟩ := exec_reader_next_cases hi h
  · exact ⟨rfl, rfl, rfl, rfl, rfl, _, rfl, fun _ => reader_responds_again hi ⟨h, rfl⟩⟩
  · exact ⟨rfl, rfl, rfl, rfl, s.setErr_upperBits e, _, rfl, fun _ => reader_responds_again hi ⟨h, rfl⟩⟩

end Sys2Proof.Machine
end

section
/-! PROOFS. The statements of 30_encoding.md on the decoder and the encoder: each undoes the other (R50 to R57). -/

namespace Sys2Proof

/-! ### Everything the decoder can do (R56 to R59) -/

/-- A packet whose operand bytes have the length its format asks for is decoded by its row. -/
theorem decode_of_requestLength {m : Mnemonic} {args : List Byte}
    (h : m.format.requestLength args = some (args.length + 1)) :
    decode (m.opsel :: args) = decodeOperands m args := by
  simp only [decode, mnemonicOf_opsel, if_pos h]

/-- A packet of an operation whose operand bytes have another length is refused for it (R57). -/
theorem decode_of_ne_requestLength {m : Mnemonic} {args : List Byte}
    (h : m.format.requestLength args ≠ some (args.length + 1)) :
    decode (m.opsel :: args) = .error .wrongLength := by
  simp only [decode, mnemonicOf_opsel, if_neg h]

/-- A packet with an OPSEL of no operation is refused for it (R56). -/
theorem decode_of_mnemonicOf_none {op : Byte} (h : mnemonicOf op = none) (args : List Byte) :
    decode (op :: args) = .error .reservedOpsel := by
  simp only [decode, h]

/-- A request has a reserved OPSEL, or a wrong length, or is decoded by its row. -/
theorem decode_cases (op : Byte) (args : List Byte) :
    (mnemonicOf op = none ∧ decode (op :: args) = .error .reservedOpsel) ∨
    ∃ m : Mnemonic, m.opsel = op ∧
      ((m.format.requestLength args ≠ some (args.length + 1) ∧ decode (op :: args) = .error .wrongLength) ∨
       (m.format.requestLength args = some (args.length + 1) ∧ decode (op :: args) = decodeOperands m args)) := by
  cases hm : mnemonicOf op with
  | none => exact .inl ⟨rfl, decode_of_mnemonicOf_none hm args⟩
  | some m =>
    obtain rfl := opsel_of_mnemonicOf hm
    refine .inr ⟨m, rfl, ?_⟩
    by_cases hlen : m.format.requestLength args = some (args.length + 1)
    · exact .inr ⟨hlen, decode_of_requestLength hlen⟩
    · exact .inl ⟨hlen, decode_of_ne_requestLength hlen⟩

/-! ### Decode after encode -/

/-- Every well-formed instruction's packet asks for its own length: the family of Laws/PerInstr.lean, over all rows. -/
theorem requestLength_encode_of_wellFormed {i : Instr} (h : i.wellFormed = true) :
    requestLength (encode i) = some (encode i).length := by
  cases i with
  | fbuild c p => exact Laws.EncodeLength.fbuild c p h
  | fload f => exact Laws.EncodeLength.fload f h
  | _ => exact Laws.requestLength_encode _

/-- An instruction's own operand bytes, read by its row, give it back. -/
theorem decodeOperands_operandBytes (i : Instr) : decodeOperands i.mnemonic i.operandBytes = .ok i := by
  cases i with
  | cmdenc dp dir opc =>
    exact (cmdencOperands_ok_iff _ _ _ _).mpr
      ⟨dp, dir, boolOfByte_byteOfBool dp, directionOfByte_byteOfDirection dir, rfl⟩
  | tsenc t => simp [Instr.mnemonic, Instr.operandBytes, decodeOperands, operands6, Timestamp.bytes]
  | tsput c t => simp [Instr.mnemonic, Instr.operandBytes, decodeOperands, operands7, Timestamp.bytes]
  | v16enc v => simp [Instr.mnemonic, Instr.operandBytes, decodeOperands, operands2]
  | v16put c v => simp [Instr.mnemonic, Instr.operandBytes, decodeOperands, operands3]
  | _ => rfl

/-- The packet of a well-formed instruction decodes to it. -/
theorem decode_encode {i : Instr} (h : i.wellFormed = true) : decode (encode i) = .ok i := by
  have hlen : i.mnemonic.format.requestLength i.operandBytes = some (i.operandBytes.length + 1) :=
    (Laws.requestLength_encode i).symm.trans (requestLength_encode_of_wellFormed h)
  exact (decode_of_requestLength hlen).trans (decodeOperands_operandBytes i)

/-- Settles O8: the packet asks for its own length, and its operand bytes are read back by its row. -/
theorem decodeOfEncodeIsTheInstruction : Obligations.DecodeOfEncodeIsTheInstruction :=
  fun _ => decode_encode

/-! ### Encode after decode -/

/-- The length byte of format V counts the bytes after it. -/
theorem requestLength_v_iff (args : List Byte) :
    Format.requestLength .v args = some (args.length + 1) ↔
      ∃ (l : Byte) (f : List Byte), args = l :: f ∧ f.length = l.toNat := by
  constructor
  · intro h
    rcases args with _ | ⟨l, f⟩
    · cases h
    · have hlen : 2 + l.toNat = f.length + 1 + 1 := Option.some.inj h
      exact ⟨l, f, rfl, by omega⟩
  · rintro ⟨l, f, rfl, hf⟩
    exact congrArg some (by rw [List.length_cons]; omega)

/-- The length byte of format CV counts the bytes after it. -/
theorem requestLength_cv_iff (args : List Byte) :
    Format.requestLength .cv args = some (args.length + 1) ↔
      ∃ (c n : Byte) (p : List Byte), args = c :: n :: p ∧ p.length = n.toNat := by
  constructor
  · intro h
    rcases args with _ | ⟨c, _ | ⟨n, p⟩⟩
    · cases h
    · cases h
    · have hlen : 3 + n.toNat = p.length + 1 + 1 + 1 := Option.some.inj h
      exact ⟨c, n, p, rfl, by omega⟩
  · rintro ⟨c, n, p, rfl, hp⟩
    exact congrArg some (by rw [List.length_cons, List.length_cons]; omega)

/-- A row gives an instruction of its own, with exactly the operand bytes it was read from. -/
theorem operandBytes_of_decodeOperands {m : Mnemonic} {args : List Byte} {i : Instr}
    (hlen : m.format.requestLength args = some (args.length + 1)) (h : decodeOperands m args = .ok i) :
    i.wellFormed = true ∧ i.mnemonic = m ∧ i.operandBytes = args := by
  cases m with
  | fparse | fread | fclr | tsget | v16get | status =>
    obtain ⟨rfl, rfl⟩ := (operands0_ok_iff _ _ _).mp h
    exact ⟨rfl, rfl, rfl⟩
  | bcddec | bcdenc | adrdec | cmddec =>
    obtain ⟨x, rfl, rfl⟩ := (operands1_ok_iff _ _ _).mp h
    exact ⟨rfl, rfl, rfl⟩
  | adrenc | v16dec =>
    obtain ⟨x, y, rfl, rfl⟩ := (operands2_ok_iff _ _ _).mp h
    exact ⟨rfl, rfl, rfl⟩
  | v16enc =>
    obtain ⟨x, y, rfl, rfl⟩ := (operands2_ok_iff _ _ _).mp h
    exact ⟨rfl, rfl, by simp [Instr.operandBytes]⟩
  | cmdenc =>
    obtain ⟨x, y, z, rfl, hxyz⟩ := (operands3_ok_iff _ _ _).mp h
    obtain ⟨dp, dir, hdp, hdir, rfl⟩ := (cmdencOperands_ok_iff _ _ _ _).mp hxyz
    refine ⟨rfl, rfl, ?_⟩
    simp only [Instr.operandBytes, byteOfBool_of_boolOfByte hdp, byteOfDirection_of_directionOfByte hdir]
  | v16put =>
    obtain ⟨c, x, y, rfl, hxy⟩ := (operands3_ok_iff _ _ _).mp h
    cases hxy
    exact ⟨rfl, rfl, by simp [Instr.operandBytes]⟩
  | tsdec =>
    obtain ⟨x0, x1, x2, x3, x4, x5, rfl, rfl⟩ := (operands6_ok_iff _ _ _).mp h
    exact ⟨rfl, rfl, rfl⟩
  | tsenc =>
    obtain ⟨x0, x1, x2, x3, x4, x5, rfl, rfl⟩ := (operands6_ok_iff _ _ _).mp h
    exact ⟨rfl, rfl, by simp [Instr.operandBytes, Timestamp.bytes]⟩
  | tsput =>
    obtain ⟨c, x0, x1, x2, x3, x4, x5, rfl, rfl⟩ := (operands7_ok_iff _ _ _).mp h
    exact ⟨rfl, rfl, by simp [Instr.operandBytes, Timestamp.bytes]⟩
  | fload =>
    obtain ⟨l, f, rfl, hf⟩ := (requestLength_v_iff args).mp hlen
    cases h
    have hl := l.isLt
    exact ⟨by simp [Instr.wellFormed]; omega, rfl, by simp [Instr.operandBytes, hf]⟩
  | fbuild =>
    obtain ⟨c, n, p, rfl, hp⟩ := (requestLength_cv_iff args).mp hlen
    cases h
    have hn := n.isLt
    exact ⟨by simp [Instr.wellFormed]; omega, rfl, by simp [Instr.operandBytes, hp]⟩

/-- Settles O9: a packet decodes only by the row of its OPSEL, which keeps every operand byte. -/
theorem encodeOfDecodeIsThePacket : Obligations.EncodeOfDecodeIsThePacket := by
  intro packet i h
  cases packet with
  | nil => cases h
  | cons op args =>
    obtain ⟨-, hd⟩ | ⟨m, rfl, ⟨-, hd⟩ | ⟨hlen, hd⟩⟩ := decode_cases op args <;> rw [hd] at h
    · cases h
    · cases h
    · obtain ⟨hwf, hm, hargs⟩ := operandBytes_of_decodeOperands hlen h
      exact ⟨hwf, by rw [encode, hm, hargs]⟩

end Sys2Proof
end

section
/-! PROOFS. The statements of 30_encoding.md on refused packets (R56 to R58) and on the order in which a request is served (R50, R59). -/

namespace Sys2Proof.Machine

open Sys2Proof.Reading

/-! ### What the decoder refuses (R56 to R58) -/

/-- The reserved Boolean operands are 2 to 255. -/
theorem boolOfByte_eq_none_iff (b : Byte) : boolOfByte b = none ↔ 2 ≤ b.toNat := by
  by_cases h0 : b = 0x00#8
  · subst h0; decide
  · by_cases h1 : b = 0x01#8
    · subst h1; decide
    · have hge : 2 ≤ b.toNat := by bv_omega
      simp only [boolOfByte, if_neg h0, if_neg h1, hge]

/-- The reserved direction operands are those of a Boolean. -/
theorem directionOfByte_eq_none_iff (b : Byte) : directionOfByte b = none ↔ 2 ≤ b.toNat := by
  rw [← boolOfByte_eq_none_iff]
  by_cases h0 : b = 0x00#8
  · subst h0; decide
  · by_cases h1 : b = 0x01#8
    · subst h1; decide
    · simp only [directionOfByte, boolOfByte, if_neg h0, if_neg h1]

/-- With a length that its format asks for, an operation's operand bytes are refused only for a reserved operand of CMDENC. -/
theorem decodeOperands_error_iff {m : Mnemonic} {args : List Byte} {e : DecodeError}
    (hlen : m.format.requestLength args = some (args.length + 1)) :
    decodeOperands m args = .error e ↔
      m = .cmdenc ∧ e = .reservedOperand ∧
        ∃ dp dir opc : Byte, args = [dp, dir, opc] ∧ (2 ≤ dp.toNat ∨ 2 ≤ dir.toNat) := by
  constructor
  · intro h
    cases m with
    | cmdenc =>
      obtain ⟨dp, dir, opc, rfl, hflags⟩ | ⟨hne, -⟩ := (operands3_error_iff _ _ _).mp h
      · obtain ⟨hnone, rfl⟩ := (cmdencOperands_error_iff _ _ _ _).mp hflags
        rw [boolOfByte_eq_none_iff, directionOfByte_eq_none_iff] at hnone
        exact ⟨rfl, rfl, dp, dir, opc, rfl, hnone⟩
      · exact absurd (Nat.succ.inj (Option.some.inj hlen).symm) hne
    | fparse | fread | fclr | tsget | v16get | status =>
      obtain ⟨hne, -⟩ := (operands0_error_iff _ _ _).mp h
      exact absurd (Nat.succ.inj (Option.some.inj hlen).symm) hne
    | bcddec | bcdenc | adrdec | cmddec =>
      obtain ⟨hne, -⟩ := (operands1_error_iff _ _ _).mp h
      exact absurd (Nat.succ.inj (Option.some.inj hlen).symm) hne
    | adrenc | v16enc | v16dec =>
      obtain ⟨hne, -⟩ := (operands2_error_iff _ _ _).mp h
      exact absurd (Nat.succ.inj (Option.some.inj hlen).symm) hne
    | v16put =>
      obtain ⟨x, y, z, -, hok⟩ | ⟨hne, -⟩ := (operands3_error_iff _ _ _).mp h
      · cases hok
      · exact absurd (Nat.succ.inj (Option.some.inj hlen).symm) hne
    | tsenc | tsdec =>
      obtain ⟨hne, -⟩ := (operands6_error_iff _ _ _).mp h
      exact absurd (Nat.succ.inj (Option.some.inj hlen).symm) hne
    | tsput =>
      obtain ⟨hne, -⟩ := (operands7_error_iff _ _ _).mp h
      exact absurd (Nat.succ.inj (Option.some.inj hlen).symm) hne
    | fload =>
      obtain ⟨l, f, rfl, -⟩ := (requestLength_v_iff args).mp hlen
      cases h
    | fbuild =>
      obtain ⟨c, n, p, rfl, -⟩ := (requestLength_cv_iff args).mp hlen
      cases h
  · rintro ⟨rfl, rfl, dp, dir, opc, rfl, hflag⟩
    rw [← boolOfByte_eq_none_iff, ← directionOfByte_eq_none_iff] at hflag
    exact (cmdencOperands_error_iff _ _ _ _).mpr ⟨hflag, rfl⟩

/-- An operation's packet is of a wrong length exactly when its format asks for another (R57). -/
theorem decode_eq_wrongLength_iff (m : Mnemonic) (args : List Byte) :
    decode (m.opsel :: args) = .error .wrongLength ↔ m.format.requestLength args ≠ some (args.length + 1) := by
  refine ⟨fun h hlen => ?_, decode_of_ne_requestLength⟩
  rw [decode_of_requestLength hlen, decodeOperands_error_iff hlen] at h
  obtain ⟨-, he, -⟩ := h
  cases he

/-- A packet is refused for a reserved operand exactly when it is a CMDENC packet with a flag of 2 to 255 (R58). -/
theorem decode_eq_reservedOperand_iff (packet : List Byte) :
    decode packet = .error .reservedOperand ↔
      ∃ dp dir opc : Byte, packet = [0x20#8, dp, dir, opc] ∧ (2 ≤ dp.toNat ∨ 2 ≤ dir.toNat) := by
  constructor
  · intro h
    cases packet with
    | nil => cases h
    | cons op args =>
      obtain ⟨-, hd⟩ | ⟨m, rfl, ⟨-, hd⟩ | ⟨hlen, hd⟩⟩ := decode_cases op args <;> rw [hd] at h
      · cases h
      · cases h
      · obtain ⟨rfl, -, dp, dir, opc, rfl, hflag⟩ := (decodeOperands_error_iff hlen).mp h
        exact ⟨dp, dir, opc, rfl, hflag⟩
  · rintro ⟨dp, dir, opc, rfl, hflag⟩
    have hlen : Mnemonic.cmdenc.format.requestLength [dp, dir, opc] = some ([dp, dir, opc].length + 1) := rfl
    exact (decode_of_requestLength hlen).trans
      ((decodeOperands_error_iff hlen).mpr ⟨rfl, rfl, dp, dir, opc, rfl, hflag⟩)

/-- Only the packet of no bytes is no request (R50). -/
theorem decode_eq_emptyPacket_iff (packet : List Byte) : decode packet = .error .emptyPacket ↔ packet = [] := by
  refine ⟨fun h => ?_, fun h => h ▸ rfl⟩
  cases packet with
  | nil => rfl
  | cons op args =>
    obtain ⟨-, hd⟩ | ⟨m, rfl, ⟨-, hd⟩ | ⟨hlen, hd⟩⟩ := decode_cases op args <;> rw [hd] at h
    · cases h
    · cases h
    · obtain ⟨-, he, -⟩ := (decodeOperands_error_iff hlen).mp h
      cases he

/-! ### How a request is served (R59) -/

/-- A refused packet with OPSEL 0xF0 is answered IllegalRequest, with nothing written (60_exceptions.md R112). -/
theorem State.rejectRequest_status (s : State) (args : List Byte) :
    s.rejectRequest (0xF0#8 :: args) = .next (answeredOnly s 0x06#8 []) := rfl

section
variable {s : State} {op : Byte} (hop : op ≠ 0xF0#8) (args : List Byte)
include hop

theorem State.rejectRequest_eq_unlessHalted :
    s.rejectRequest (op :: args) = s.unlessHalted fun s => s.raise .illegalRequest :=
  if_neg fun h => hop (Option.some.inj h)

/-- Under the fatal latch any other refused packet is answered Halted. -/
theorem State.rejectRequest_of_latched (hs : latched s) :
    s.rejectRequest (op :: args) = .next (answeredOnly s 0x07#8 []) :=
  (State.rejectRequest_eq_unlessHalted hop args).trans (State.unlessHalted_of_fatal hs _)

/-- Without the latch it is answered IllegalRequest, and ST.ERR is written. -/
theorem State.rejectRequest_of_unlatched (hs : unlatched s) :
    s.rejectRequest (op :: args) = .next (answered s 0x06#8 []) :=
  (State.rejectRequest_eq_unlessHalted hop args).trans
    ((State.unlessHalted_of_not_fatal hs _).trans (s.raise_eq_answered (by decide)))

end

section
variable {s : State} {op : Byte} {args : List Byte} {rest : List HostEvent} {e : DecodeError}
  (hp : s.pending = .request (op :: args) :: rest) (hd : decode (op :: args) = .error e)
include hp hd

/-- A request that does not decode is rejected. -/
theorem step_of_decode_error : step s = ({ s with pending := rest } : State).rejectRequest (op :: args) := by
  have he : e ≠ .emptyPacket := by
    rintro rfl
    cases (decode_eq_emptyPacket_iff _).mp hd
  exact (step_event hp).trans (serveRequest_error hd he _)

/-- A request that does not decode answers IllegalRequest and writes ST.ERR only. -/
theorem step_illegal (hs : unlatched s) (hop : op ≠ 0xF0#8) :
    step s = .next (answered { s with pending := rest } 0x06#8 []) :=
  (step_of_decode_error hp hd).trans (State.rejectRequest_of_unlatched hop args hs)

/-- With OPSEL 0xF0 nothing is written (60_exceptions.md R112). -/
theorem step_illegal_status (hop : op = 0xF0#8) :
    step s = .next (answeredOnly { s with pending := rest } 0x06#8 []) := by
  subst hop
  exact step_of_decode_error hp hd

end

/-- Under the fatal latch every operation but STATUS is refused, in the words of the statements (60_exceptions.md R107). -/
theorem haltedWhenLatched_of_ne_status {i : Instr} (hi : i ≠ .status) : haltedWhenLatched i :=
  fun _ hs => exec_of_fatal hs hi

/-- A packet that decodes carries the OPSEL of its instruction's row. -/
theorem opsel_of_decode {op : Byte} {args : List Byte} {i : Instr} (h : decode (op :: args) = .ok i) :
    i.mnemonic.opsel = op := by
  obtain ⟨-, hpacket⟩ := encodeOfDecodeIsThePacket _ _ h
  exact (List.cons.inj hpacket).1

/-- Settles O12: STATUS is the one row with OPSEL 0xF0, so the test of OPSEL before decoding is the one each meaning makes. -/
theorem requestsAreServedInTheDecodingOrder : Obligations.RequestsAreServedInTheDecodingOrder := by
  intro s op args rest hp
  split
  · next hlatch =>
    obtain ⟨hs, hop⟩ := hlatch
    cases hd : decode (op :: args) with
    | ok i =>
      have hi : i ≠ .status := by
        rintro rfl
        exact hop (opsel_of_decode hd).symm
      calc step s = exec i { s with pending := rest } := stepRunsTheDecodedInstruction s _ rest i hp hd
        _ = .next (answeredOnly { s with pending := rest } 0x07#8 []) := haltedWhenLatched_of_ne_status hi _ hs
    | error e => exact (step_of_decode_error hp hd).trans (State.rejectRequest_of_latched hop args hs)
  · next hlatch =>
    cases hd : decode (op :: args) with
    | ok i => exact stepRunsTheDecodedInstruction s _ rest i hp hd
    | error e =>
      by_cases hop : op = 0xF0#8
      · exact (step_illegal_status hp hd hop).trans (if_pos hop).symm
      · have hs : unlatched s := Bool.eq_false_of_not_eq_true fun h => hlatch ⟨h, hop⟩
        exact (step_illegal hp hd hs hop).trans (if_neg hop).symm

/-- Settles O13: with no event the step stays, and the empty packet is consumed with no other effect. -/
theorem emptyPacketAndNoPacketDoNothing : Obligations.EmptyPacketAndNoPacketDoNothing :=
  ⟨fun _ => step_idle, fun _ _ => step_event⟩

/-- Settles O16: the decoder's one refusal for an operand is CMDENC's, and the step rejects the packet. -/
theorem reservedFlagOperandIsIllegal : Obligations.ReservedFlagOperandIsIllegal := by
  refine ⟨decode_eq_reservedOperand_iff, fun s dp dir opc rest hp hs hflag => ?_⟩
  have hd := (decode_eq_reservedOperand_iff _).mpr ⟨dp, dir, opc, rfl, hflag⟩
  exact step_illegal hp hd hs (by decide)

/-! ### Wrong lengths (R57) -/

/-- The listed lengths are those that the operations' formats ask for. -/
theorem exists_mnemonic_of_mem_fixedLengths :
    ∀ p ∈ fixedLengths, ∃ m : Mnemonic, m.opsel = p.1 ∧ ∀ args, m.format.requestLength args = some p.2 := by
  simp only [fixedLengths, List.forall_mem_cons]
  exact ⟨⟨.bcddec, rfl, fun _ => rfl⟩, ⟨.bcdenc, rfl, fun _ => rfl⟩, ⟨.adrenc, rfl, fun _ => rfl⟩,
    ⟨.adrdec, rfl, fun _ => rfl⟩, ⟨.cmdenc, rfl, fun _ => rfl⟩, ⟨.cmddec, rfl, fun _ => rfl⟩,
    ⟨.fparse, rfl, fun _ => rfl⟩, ⟨.fread, rfl, fun _ => rfl⟩, ⟨.fclr, rfl, fun _ => rfl⟩,
    ⟨.tsenc, rfl, fun _ => rfl⟩, ⟨.tsdec, rfl, fun _ => rfl⟩, ⟨.v16enc, rfl, fun _ => rfl⟩,
    ⟨.v16dec, rfl, fun _ => rfl⟩, ⟨.tsput, rfl, fun _ => rfl⟩, ⟨.tsget, rfl, fun _ => rfl⟩,
    ⟨.v16put, rfl, fun _ => rfl⟩, ⟨.v16get, rfl, fun _ => rfl⟩, ⟨.status, rfl, fun _ => rfl⟩, by simp⟩

/-- An operation of fixed length refuses every other number of bytes. -/
theorem decode_eq_wrongLength_iff_of_fixed {m : Mnemonic} {n : Nat} (h : ∀ args, m.format.requestLength args = some n)
    (args : List Byte) : decode (m.opsel :: args) = .error .wrongLength ↔ args.length + 1 ≠ n := by
  rw [decode_eq_wrongLength_iff, h, Ne, Option.some.injEq, eq_comm]

/-- Settles O15: the formats' lengths, row by row, and the step of a packet that is refused for its length. -/
theorem wrongLengthIsIllegal : Obligations.WrongLengthIsIllegal := by
  refine ⟨fun p hp args => ?_, fun args => ?_, fun args => ?_, fun s op args rest hp hd => ?_⟩
  · obtain ⟨m, hop, hlen⟩ := exists_mnemonic_of_mem_fixedLengths p hp
    rw [← hop]
    exact decode_eq_wrongLength_iff_of_fixed hlen args
  · exact (decode_eq_wrongLength_iff .fload args).trans (not_congr (requestLength_v_iff args))
  · exact (decode_eq_wrongLength_iff .fbuild args).trans (not_congr (requestLength_cv_iff args))
  · exact ⟨fun hop hs => step_illegal hp hd hs hop, step_illegal_status hp hd⟩

/-! ### Reserved OPSEL values (R56) -/

/-- The listed ranges are what the OPSEL map leaves over. -/
theorem reservedOpsel_iff (op : Byte) : reservedOpsel op ↔ ∀ m : Mnemonic, m.opsel ≠ op := by
  constructor
  · rintro h m rfl
    cases m <;> exact absurd h (by decide)
  · intro h
    have hall : ∀ m ∈ Mnemonic.all, op.toNat ≠ m.opsel.toNat := fun m _ e => h m (BitVec.eq_of_toNat_eq e.symm)
    simp only [Mnemonic.all, Mnemonic.opsel, List.forall_mem_cons, BitVec.toNat_ofNat] at hall
    have hlt := op.isLt
    unfold reservedOpsel
    omega

/-- No operation has a reserved OPSEL. -/
theorem mnemonicOf_of_reservedOpsel {op : Byte} (h : reservedOpsel op) : mnemonicOf op = none := by
  rw [Option.eq_none_iff_forall_ne_some]
  exact fun m hm => (reservedOpsel_iff op).mp h m (opsel_of_mnemonicOf hm)

/-- Every row of the OPSEL map has an instruction. -/
theorem exists_instr_of_mnemonic (m : Mnemonic) : ∃ i : Instr, i.mnemonic = m := by
  cases m with
  | bcddec => exact ⟨.bcddec 0, rfl⟩
  | bcdenc => exact ⟨.bcdenc 0, rfl⟩
  | adrenc => exact ⟨.adrenc 0 0, rfl⟩
  | adrdec => exact ⟨.adrdec 0, rfl⟩
  | cmdenc => exact ⟨.cmdenc false .nodeToHub 0, rfl⟩
  | cmddec => exact ⟨.cmddec 0, rfl⟩
  | fbuild => exact ⟨.fbuild 0 [], rfl⟩
  | fload => exact ⟨.fload [], rfl⟩
  | fparse => exact ⟨.fparse, rfl⟩
  | fread => exact ⟨.fread, rfl⟩
  | fclr => exact ⟨.fclr, rfl⟩
  | tsenc => exact ⟨.tsenc ⟨0, 0, 0, 0, 0⟩, rfl⟩
  | tsdec => exact ⟨.tsdec ⟨0, 0, 0, 0, 0, 0⟩, rfl⟩
  | v16enc => exact ⟨.v16enc 0, rfl⟩
  | v16dec => exact ⟨.v16dec ⟨0, 0⟩, rfl⟩
  | tsput => exact ⟨.tsput 0 ⟨0, 0, 0, 0, 0⟩, rfl⟩
  | tsget => exact ⟨.tsget, rfl⟩
  | v16put => exact ⟨.v16put 0 0, rfl⟩
  | v16get => exact ⟨.v16get, rfl⟩
  | status => exact ⟨.status, rfl⟩

/-- The reserved OPSEL values are the first bytes of no instruction's packet. -/
theorem reservedOpsel_iff_encode (op : Byte) : reservedOpsel op ↔ ∀ i : Instr, (encode i).head? ≠ some op := by
  rw [reservedOpsel_iff]
  constructor
  · exact fun h i hi => h i.mnemonic (Option.some.inj hi)
  · intro h m hm
    obtain ⟨i, rfl⟩ := exists_instr_of_mnemonic m
    exact h i (congrArg some hm)

theorem reservedOpsel_count :
    ((List.range 256).filter fun n => decide (reservedOpsel (BitVec.ofNat 8 n))).length = 236 := by
  decide +kernel

/-- Settles O14: a reserved OPSEL selects no row, so the packet is refused whatever its other bytes are. -/
theorem reservedOpselIsIllegal : Obligations.ReservedOpselIsIllegal := by
  refine ⟨reservedOpsel_count, reservedOpsel_iff_encode, fun s op args rest hp hs hres => ?_⟩
  have hop : op ≠ 0xF0#8 := fun h => (reservedOpsel_iff op).mp hres .status h.symm
  exact step_illegal hp (decode_of_mnemonicOf_none (mnemonicOf_of_reservedOpsel hres) args) hs hop

end Sys2Proof.Machine
end

section
/-! PROOFS. The statements of 30_encoding.md on a whole run (R50, R51; 70_reset_and_hazards.md R135): the invariant of the machine is kept, and every request gets one response. -/

namespace Sys2Proof.Machine

open Sys2Proof.Reading

/-! ### The status values are kept (60_exceptions.md R113) -/

/-- A reachable value of ST without the latch has zeros above ERR. -/
theorem State.StatusInv.upperBits_eq_zero {s : State} (hs : s.StatusInv) (hf : s.fatal = false) :
    s.st &&& 0xF8#8 = 0x00#8 := by
  have hall : ∀ v ∈ reachableSt, v.getLsbD 7 = false → v &&& 0xF8#8 = 0x00#8 := by decide
  exact hall s.st hs hf

/-- Without the latch ST.ERR is the whole of ST, and every code but ConfigurationError's and Halted's is a reachable value. -/
theorem State.StatusInv.setErr {s : State} (hs : s.StatusInv) (hf : s.fatal = false) {e : Status}
    (he : e ≠ .configurationError ∧ e ≠ .halted) : (s.setErr e).StatusInv := by
  have hst : (s.setErr e).st = e.code := by
    rw [State.setErr_st, hs.upperBits_eq_zero hf, BitVec.zero_or]
  unfold State.StatusInv
  rw [hst]
  obtain ⟨hconf, hhalt⟩ := he
  cases e with
  | configurationError => exact absurd rfl hconf
  | halted => exact absurd rfl hhalt
  | _ => decide

/-- A ConfigurationError leaves ST with FATAL and ERR = 1. -/
theorem State.StatusInv.setFatal {s : State} (hs : s.StatusInv) (hf : s.fatal = false) :
    (s.setFatal.setErr .configurationError).StatusInv := by
  have hst : (s.setFatal.setErr .configurationError).st = 0x81#8 := by
    rw [State.setErr_st, State.setFatal_st, BitVec.and_or_distrib_right, hs.upperBits_eq_zero hf]
    rfl
  unfold State.StatusInv
  rw [hst]
  decide

/-- Every operation keeps ST among its reachable values. -/
theorem exec_statusInv {i : Instr} {s t : State} (hs : s.StatusInv) (h : exec i s = .next t) : t.StatusInv := by
  obtain ⟨-, rfl⟩ | ⟨-, -, rfl⟩ | ⟨-, hf, heff⟩ := exec_next_cases h
  · exact hs
  · exact hs
  · cases heff with
    | responded e rs he _ _ ht =>
      obtain ⟨hconf, -, hhalt⟩ := he
      subst ht
      exact hs.setErr hf ⟨hconf, hhalt⟩
    | constantRefused _ ht => subst ht; exact hs.setFatal hf
    | stored _ f _ ht =>
      subst ht
      have hst : (s.framed f).st = 0x00#8 := hs.upperBits_eq_zero hf
      unfold State.StatusInv
      rw [hst]
      decide

/-- So does a refused request. -/
theorem rejectRequest_statusInv {packet : List Byte} {s t : State} (hs : s.StatusInv)
    (h : s.rejectRequest packet = .next t) : t.StatusInv := by
  obtain ⟨-, rfl⟩ | ⟨-, -, rfl⟩ | ⟨-, hf, rfl⟩ := rejectRequest_next_cases h
  · exact hs
  · exact hs
  · exact hs.setErr (e := .illegalRequest) hf (by decide)

/-- Serving a request keeps ST among its reachable values. -/
theorem serveRequest_statusInv {packet : List Byte} {s t : State} (hs : s.StatusInv)
    (h : serveRequest packet s = .next t) : t.StatusInv := by
  obtain ⟨-, he⟩ | ⟨i, -, he⟩ | ⟨e, -, -, he⟩ := serveRequest_cases packet s <;> rw [he] at h
  · cases h; exact hs
  · exact exec_statusInv hs h
  · exact rejectRequest_statusInv hs h

/-- Every step keeps ST among its reachable values. -/
theorem step_statusInv {s t : State} (hs : s.StatusInv) (h : step s = .next t) : t.StatusInv := by
  obtain ⟨-, he⟩ | ⟨_, rest, -, he⟩ | ⟨packet, rest, -, he⟩ := step_cases s <;> rw [he] at h
  · cases h; exact hs
  · cases h; exact State.reset_statusInv
  · exact serveRequest_statusInv (s := { s with pending := rest }) hs h

/-- Every step keeps the invariant of the machine. -/
theorem step_inv {s t : State} (hs : s.Inv) (h : step s = .next t) : t.Inv := by
  obtain ⟨hlegal, hframe, hstatus⟩ := hs
  obtain ⟨hchange, hcfg⟩ := step_bufferChange h
  exact ⟨hcfg ▸ hlegal, hframe.of_bufferChange hchange hcfg, step_statusInv hstatus h⟩

/-! ### The responses of one event (R50, R51) -/

/-- From `s` to `t` this many responses were added, none of them empty, and the host's queue was left. -/
def AddsResponses (n : Nat) (s t : State) : Prop :=
  t.pending = s.pending ∧
    ∃ answers : List (List Byte), t.responses = s.responses ++ answers ∧ (∀ r ∈ answers, r ≠ []) ∧ answers.length = n

theorem AddsResponses.none (s : State) : AddsResponses 0 s s :=
  ⟨rfl, [], (List.append_nil _).symm, by simp, rfl⟩

theorem AddsResponses.one {s t : State} {code : Byte} {rs : List Byte} (hp : t.pending = s.pending)
    (hr : t.responses = s.responses ++ [code :: rs]) : AddsResponses 1 s t :=
  ⟨hp, [code :: rs], hr, by simp, rfl⟩

/-- An operation gives one response. -/
theorem exec_addsResponses {i : Instr} {s t : State} (h : exec i s = .next t) : AddsResponses 1 s t := by
  obtain ⟨-, rfl⟩ | ⟨-, -, rfl⟩ | ⟨-, -, heff⟩ := exec_next_cases h
  · exact .one rfl rfl
  · exact .one rfl rfl
  · cases heff with
    | responded _ _ _ _ _ ht => subst ht; exact .one rfl rfl
    | constantRefused _ ht => subst ht; exact .one rfl rfl
    | stored _ _ _ ht => subst ht; exact .one rfl rfl

/-- A refused request gets one response. -/
theorem rejectRequest_addsResponses {packet : List Byte} {s t : State} (h : s.rejectRequest packet = .next t) :
    AddsResponses 1 s t := by
  obtain ⟨-, rfl⟩ | ⟨-, -, rfl⟩ | ⟨-, -, rfl⟩ := rejectRequest_next_cases h <;> exact .one rfl rfl

/-- The events that get a response: requests of at least one byte; no reset, also not one that abandons a request. -/
def HostEvent.getsResponse : HostEvent → Bool
  | .request packet => !packet.isEmpty
  | .reset => false
  | .resetDuring _ => false

/-- A request gets one response, unless it is empty. -/
theorem serveRequest_addsResponses {packet : List Byte} {s t : State} (h : serveRequest packet s = .next t) :
    AddsResponses (if HostEvent.getsResponse (.request packet) then 1 else 0) s t := by
  cases packet with
  | nil => cases h; exact .none s
  | cons op args =>
    obtain ⟨hd, -⟩ | ⟨i, -, he⟩ | ⟨e, -, -, he⟩ := serveRequest_cases (op :: args) s
    · cases (decode_eq_emptyPacket_iff _).mp hd
    · exact exec_addsResponses (he ▸ h)
    · exact rejectRequest_addsResponses (he ▸ h)

/-- A step takes the oldest event from the queue and answers a request of at least one byte. -/
theorem step_addsResponses {s t : State} {e : HostEvent} {rest : List HostEvent} (hp : s.pending = e :: rest)
    (h : step s = .next t) : AddsResponses (if e.getsResponse then 1 else 0) { s with pending := rest } t := by
  rw [step_event hp] at h
  cases e with
  | request packet => exact serveRequest_addsResponses h
  | reset => cases h; exact .none _
  | resetDuring packet => cases h; exact .none _

/-! ### A whole run (70_reset_and_hazards.md R135) -/

/-- A run of as many steps as events are pending uses them up, keeps the invariant, and answers each request of at least one byte once. -/
theorem run_answers_every_event {s : State} {events : List HostEvent} (hs : s.Inv) (hp : s.pending = events) :
    ∃ t, Host.Core.run Sys2Proof.core events.length s = .next t ∧ t.Inv ∧
      AddsResponses (events.countP HostEvent.getsResponse) { s with pending := [] } t := by
  induction events generalizing s with
  | nil => exact ⟨s, run_zero s, hs, hp, (AddsResponses.none s).2⟩
  | cons e rest ih =>
    have ⟨_, ⟨_, hlen, _⟩, _⟩ := hs
    obtain ⟨u, hu⟩ := step_answers hlen
    obtain ⟨hrest, first, hfirst, hne, hcount⟩ := step_addsResponses hp hu
    obtain ⟨t, hrun, ht, hempty, later, hlater, hne', hcount'⟩ := ih (step_inv hs hu) hrest
    refine ⟨t, (run_succ hu).trans hrun, ht, hempty, first ++ later, ?_, ?_, ?_⟩
    · calc t.responses = u.responses ++ later := hlater
        _ = s.responses ++ first ++ later := congrArg (· ++ later) hfirst
        _ = s.responses ++ (first ++ later) := List.append_assoc ..
    · exact fun r hr => (List.mem_append.mp hr).elim (hne r) (hne' r)
    · rw [List.length_append, hcount, hcount', List.countP_cons, Nat.add_comm]

/-- Settles O7, by induction on the events: no step stops, and each keeps the invariant and answers its event if that is a request of at least one byte. -/
theorem everyRunEndsWithOneResponsePerRequest : Obligations.EveryRunEndsWithOneResponsePerRequest := by
  intro s events hs
  obtain ⟨t, hrun, ht, hempty, answers, hresp, hne, hcount⟩ :=
    run_answers_every_event (s := s.withEvents events) (events := events) hs rfl
  exact ⟨t, hrun, ht, hempty, answers, hresp, hne, hcount⟩

end Sys2Proof.Machine
end

section
/-! PROOFS. The statements of 30_encoding.md on packets and assembler lines written out (R54, R60, R61). -/

namespace Sys2Proof

/-- Settles O10: each packet is the encoder's for its operation, so it decodes to it. -/
theorem writtenOutPacketsDecode : Obligations.WrittenOutPacketsDecode :=
  ⟨decode_encode (i := .bcddec 0x25#8) rfl, decode_encode (i := .adrenc 15#8 0#8) rfl,
    decode_encode (i := .cmdenc true .nodeToHub 5#8) rfl, decode_encode (i := .fbuild 0x85#8 [0x23#8, 0x45#8]) rfl,
    decode_encode (i := .fload [0x85#8, 0x23#8, 0x45#8]) rfl,
    decode_encode (i := .tsenc ⟨2023#16, 6#8, 15#8, 14#8, 30#8⟩) rfl,
    decode_encode (i := .v16put 0x85#8 2345#16) rfl, decode_encode (i := .status) rfl⟩

/-- Settles O35: each line is assembled character by character. -/
theorem assemblerLinesGiveTheirPackets : Obligations.AssemblerLinesGiveTheirPackets := by
  refine ⟨?_, ?_, ?_, ?_, ?_, ?_, ?_, ?_, ?_, ?_, ?_, ?_, ?_, ?_, ?_⟩ <;> decide

end Sys2Proof
end

section
/-! PROOFS. The statements of 41_address.md (R71) and 44_typed_fields.md (R93 to R96) on ADRDEC, TSPUT, TSGET, V16PUT and V16GET: the packet, the effect with its frame, the refusal under the latch, the other lengths. -/

namespace Sys2Proof.Machine

open Sys2Proof.Reading

/-! ### What the statements on single operations share -/

/-- An operation of fixed length, STATUS aside, refuses every other number of operand bytes (30_encoding.md R57). -/
theorem onlyWithOperands_of_fixed {m : Mnemonic} {k : Nat} (hm : m.opsel ≠ 0xF0#8)
    (hlen : ∀ args, m.format.requestLength args = some (k + 1)) : onlyWithOperands m.opsel k := by
  intro s args rest hp hs hk
  have hne : args.length + 1 ≠ k + 1 := fun h => hk (Nat.succ.inj h)
  exact step_illegal hp ((decode_eq_wrongLength_iff_of_fixed hlen args).mpr hne) hs hm

/-- The buffer after a frame that fits was put there, in the words of the statements (43_frame.md R78). -/
theorem State.framed_frameStored {s : State} {f : List Byte} (hwf : s.frame.wf = true) (hfit : f.length ≤ s.maxLen) :
    frameStored s (s.framed f) f := by
  refine ⟨Memory.writeN_wf hwf _ _, fun k hk => ?_, fun k hk => ?_, State.toNat_ofNat_length hfit, rfl, rfl, rfl, rfl⟩
  · exact (Memory.read_storeFrame hwf hfit k).trans (if_pos hk)
  · exact (Memory.read_storeFrame hwf hfit k).trans (if_neg (Nat.not_lt.mpr hk))

/-- Putting a frame that fits in the buffer ends in the state that stores it. -/
theorem State.replaceFrame_frameStored {s : State} {f : List Byte} (hwf : s.frame.wf = true)
    (hfit : f.length ≤ s.maxLen) : ∃ t, s.replaceFrame f = .next t ∧ frameStored s t f :=
  ⟨s.framed f, State.replaceFrame_eq hfit, State.framed_frameStored hwf hfit⟩

/-! ### ADRDEC (R71) -/

/-- The first result of ADRDEC is the byte's high nibble. -/
theorem addressClass_eq (a : Byte) : addressClass a = BitVec.ofNat 8 (a.toNat / 16) := by
  have ha := a.isLt
  apply BitVec.eq_of_toNat_eq
  rw [addressClass, BitVec.toNat_ushiftRight, BitVec.toNat_ofNat, Nat.shiftRight_eq_div_pow]
  omega

/-- The second result of ADRDEC is the byte's low nibble. -/
theorem addressInstance_eq (a : Byte) : addressInstance a = BitVec.ofNat 8 (a.toNat % 16) := by
  apply BitVec.eq_of_toNat_eq
  rw [addressInstance, BitVec.toNat_and, BitVec.toNat_ofNat]
  calc a.toNat &&& 2 ^ 4 - 1 = a.toNat % 2 ^ 4 := Nat.and_two_pow_sub_one_eq_mod _ 4
    _ = a.toNat % 16 % 2 ^ 8 := by omega

/-- Settles O39: the two results are the nibbles of the byte. -/
theorem adrdecAnswersClassAndInstance : Obligations.AdrdecAnswersClassAndInstance := by
  refine ⟨fun a => decode_encode (i := .adrdec a) rfl, fun s a hs => ?_,
    fun a => haltedWhenLatched_of_ne_status (by simp),
    onlyWithOperands_of_fixed (m := .adrdec) (by decide) fun _ => rfl⟩
  rw [execAdrdec_of_not_fatal hs, State.respond_eq_answered, addressClass_eq, addressInstance_eq]
  rfl

/-! ### BCD and the typed fields in the words of the statements (40_bcd.md R62 to R64, R85 to R87) -/

/-- `b - 6*(b >> 4)` is ten times the high nibble plus the low one. -/
theorem bcdDec_eq_worth (b : Byte) : bcdDec b = worth b := by
  rw [bcdDec, worth, Nat.shiftRight_eq_div_pow]
  omega

theorem bcdDecByte_eq_worth (b : Byte) : bcdDecByte b = BitVec.ofNat 8 (worth b) := by
  rw [bcdDecByte, bcdDec_eq_worth]

theorem comb_eq_worth2 (h l : Byte) : comb h l = worth2 h l := by
  rw [comb, worth2, bcdDec_eq_worth, bcdDec_eq_worth]

/-- The tens and the units do not overlap in a BCD byte. -/
theorem bcdEnc_eq_bcdByte (n : Nat) : bcdEnc n = bcdByte n := by
  rw [bcdEnc, bcdByte, ← Nat.shiftLeft_add_eq_or_of_lt (by omega), Nat.shiftLeft_eq, Nat.mul_comm]

theorem bcdOk_iff (b : Byte) : bcdOk b = true ↔ wellFormedBcd b := by
  rw [bcdOk, Bool.and_eq_true, decide_eq_true_iff, decide_eq_true_iff, highNibble, lowNibble]

/-- Two BCD bytes are worth at most 16665, which fits 16 bits. -/
theorem worth2_lt (h l : Byte) : worth2 h l < 65536 := by
  have hh := h.isLt
  have hl := l.isLt
  simp only [worth2, worth]
  omega

/-- A number that fits 16 bits travels as its two bytes, high byte first. -/
theorem hi8_lo8_ofNat {n : Nat} (h : n < 65536) :
    [hi8 (BitVec.ofNat 16 n), lo8 (BitVec.ofNat 16 n)] = twoBytes n := by
  have hn : (BitVec.ofNat 16 n).toNat = n := Nat.mod_eq_of_lt h
  have hhi : hi8 (BitVec.ofNat 16 n) = BitVec.ofNat 8 (n / 256) := by
    apply BitVec.eq_of_toNat_eq
    rw [hi8_toNat, hn, BitVec.toNat_ofNat]
    omega
  have hlo : lo8 (BitVec.ofNat 16 n) = BitVec.ofNat 8 (n % 256) := by
    apply BitVec.eq_of_toNat_eq
    rw [lo8_toNat, hn, BitVec.toNat_ofNat]
    omega
  rw [hhi, hlo, twoBytes]

theorem decimal16Ok_iff (v : Half) : decimal16Ok v = true ↔ v.toNat ≤ 9999 := decide_eq_true_iff

theorem timestampOk_iff (t : Timestamp) : timestampOk t = true ↔ encodable t := by
  simp [timestampOk, decimal16Ok, decimalOk, and_assoc]

theorem tsEnc_bytes (t : Timestamp) : (tsEnc t).bytes = timestampBytes t := by
  simp only [tsEnc, TsPayload.bytes, timestampBytes, bcdEnc_eq_bcdByte]

theorem v16Enc_bytes (v : Half) : (v16Enc v).bytes = valueBytes v := by
  simp only [v16Enc, ValuePayload.bytes, valueBytes, bcdEnc_eq_bcdByte]

theorem tsOk_iff (p : TsPayload) : tsOk p = true ↔ wellFormedTs p := by
  simp only [tsOk, List.all_eq_true, bcdOk_iff]

theorem v16Ok_iff (p : ValuePayload) : v16Ok p = true ↔ wellFormedBcd p.high ∧ wellFormedBcd p.low := by
  rw [v16Ok, Bool.and_eq_true, bcdOk_iff, bcdOk_iff]

theorem tsDec_bytes (p : TsPayload) : (tsDec p).bytes = timestampResult p := by
  calc (tsDec p).bytes
      = [hi8 (BitVec.ofNat 16 (comb p.yearHigh p.yearLow)), lo8 (BitVec.ofNat 16 (comb p.yearHigh p.yearLow))] ++
          [bcdDecByte p.month, bcdDecByte p.day, bcdDecByte p.hour, bcdDecByte p.minute] := rfl
    _ = timestampResult p := by
      simp only [timestampResult, comb_eq_worth2, hi8_lo8_ofNat (worth2_lt _ _), bcdDecByte_eq_worth]

theorem v16Dec_bytes (p : ValuePayload) : [hi8 (v16Dec p), lo8 (v16Dec p)] = twoBytes (worth2 p.high p.low) := by
  rw [v16Dec, comb_eq_worth2, hi8_lo8_ofNat (worth2_lt _ _)]

/-- A decoded timestamp is answered under OK when its bytes are well formed, else under MalformedBcd. -/
theorem State.respondTimestamp_eq (s : State) (p : TsPayload) :
    (wellFormedTs p → s.respondTimestamp p = .next (answered s 0x00#8 (timestampResult p))) ∧
    (¬ wellFormedTs p → s.respondTimestamp p = .next (answered s 0x03#8 (timestampResult p))) := by
  rw [State.respondTimestamp, tsDec_bytes, ← tsOk_iff]
  exact ⟨fun h => by rw [h]; rfl, fun h => by rw [Bool.eq_false_of_not_eq_true h]; rfl⟩

/-- A decoded value is answered under the same two statuses. -/
theorem State.respondValue_eq (s : State) (p : ValuePayload) :
    (wellFormedBcd p.high ∧ wellFormedBcd p.low →
      s.respondValue p = .next (answered s 0x00#8 (twoBytes (worth2 p.high p.low)))) ∧
    (¬ (wellFormedBcd p.high ∧ wellFormedBcd p.low) →
      s.respondValue p = .next (answered s 0x03#8 (twoBytes (worth2 p.high p.low)))) := by
  rw [State.respondValue, v16Dec_bytes, ← v16Ok_iff]
  exact ⟨fun h => by rw [h]; rfl, fun h => by rw [Bool.eq_false_of_not_eq_true h]; rfl⟩

/-! ### TSPUT and V16PUT (R93, R95) -/

/-- Settles O51: the capacity is tested before the ranges, and the frame is the command byte and six BCD bytes. -/
theorem tsputStoresATimestampFrame : Obligations.TsputStoresATimestampFrame := by
  refine ⟨fun c yH yL mo d h mi => ⟨⟨u16 yH yL, mo, d, h, mi⟩, rfl, u16_toNat yH yL, rfl, rfl, rfl, rfl⟩,
    fun s c ts hs hwf => ?_, fun c ts => haltedWhenLatched_of_ne_status (by simp),
    onlyWithOperands_of_fixed (m := .tsput) (by decide) fun _ => rfl⟩
  rw [execTsput_of_not_fatal hs, tsEnc_bytes]
  refine ⟨fun ⟨hcap, hok⟩ => ?_, fun hcap => ?_, fun ⟨hcap, hok⟩ => ?_⟩
  · rw [if_neg (by omega), if_pos ((timestampOk_iff ts).mpr hok)]
    exact State.replaceFrame_frameStored hwf hcap
  · rw [if_pos (by omega)]
    exact s.raise_eq_answered (by decide)
  · rw [if_neg (by omega), if_neg (mt (timestampOk_iff ts).mp hok)]
    exact s.raise_eq_answered (by decide)

/-- Settles O53: as for TSPUT, with two BCD bytes. -/
theorem v16putStoresAValueFrame : Obligations.V16putStoresAValueFrame := by
  refine ⟨fun c vH vL => ⟨u16 vH vL, rfl, u16_toNat vH vL⟩, fun s c v hs hwf => ?_,
    fun c v => haltedWhenLatched_of_ne_status (by simp),
    onlyWithOperands_of_fixed (m := .v16put) (by decide) fun _ => rfl⟩
  rw [execV16put_of_not_fatal hs, v16Enc_bytes]
  refine ⟨fun ⟨hcap, hok⟩ => ?_, fun hcap => ?_, fun ⟨hcap, hok⟩ => ?_⟩
  · rw [if_neg (by omega), if_pos ((decimal16Ok_iff v).mpr hok)]
    exact State.replaceFrame_frameStored hwf hcap
  · rw [if_pos (by omega)]
    exact s.raise_eq_answered (by decide)
  · rw [if_neg (by omega), if_neg (mt (decimal16Ok_iff v).mp (Nat.not_le.mpr hok))]
    exact s.raise_eq_answered (by decide)

/-! ### TSGET and V16GET (R94, R96) -/

/-- TSGET of a frame within the buffer that holds a timestamp answers the field's. -/
theorem exec_tsget_of_le {s : State} (hs : unlatched s) (h7 : 7 ≤ s.flen.toNat) (hlen : s.flen.toNat ≤ s.maxLen) :
    exec .tsget s = s.respondTimestamp (tsFieldOf s) := by
  rw [execTsget_of_not_fatal hs, if_neg (by omega), State.withBytes_eq (by rw [typedFieldAddress]; omega)]
  rfl

/-- V16GET of a frame within the buffer that holds a value answers the field's. -/
theorem exec_v16get_of_le {s : State} (hs : unlatched s) (h3 : 3 ≤ s.flen.toNat) (hlen : s.flen.toNat ≤ s.maxLen) :
    exec .v16get s = s.respondValue ⟨s.readByte 1, s.readByte 2⟩ := by
  rw [execV16get_of_not_fatal hs, if_neg (by omega), State.withBytes_eq (by rw [typedFieldAddress]; omega)]
  rfl

/-- Settles O52: a frame of at least seven bytes within the buffer holds the field that is decoded. -/
theorem tsgetAnswersTheFramesTimestamp : Obligations.TsgetAnswersTheFramesTimestamp := by
  refine ⟨decode_encode (i := .tsget) rfl, fun s hs => ⟨exec_tsget_short hs, fun ⟨h7, hlen⟩ => ?_⟩,
    haltedWhenLatched_of_ne_status (by simp), onlyWithOperands_of_fixed (m := .tsget) (by decide) fun _ => rfl⟩
  rw [exec_tsget_of_le hs h7 hlen]
  exact s.respondTimestamp_eq (tsFieldOf s)

/-- Settles O54: as for TSGET, with three bytes. -/
theorem v16getAnswersTheFramesValue : Obligations.V16getAnswersTheFramesValue := by
  refine ⟨decode_encode (i := .v16get) rfl, fun s hs => ⟨exec_v16get_short hs, fun ⟨h3, hlen⟩ => ?_⟩,
    haltedWhenLatched_of_ne_status (by simp), onlyWithOperands_of_fixed (m := .v16get) (by decide) fun _ => rfl⟩
  rw [exec_v16get_of_le hs h3 hlen]
  exact s.respondValue_eq ⟨s.readByte 1, s.readByte 2⟩

end Sys2Proof.Machine
end

section
/-! PROOFS. The statements of 40_bcd.md: the three BCD functions (R62 to R64), BCDDEC (R65), BCDENC (R66), and that encode and decode are inverse (R67). -/

namespace Sys2Proof.Machine

open Sys2Proof.Reading

/-! ### The BCD byte of a number and the number of a BCD byte (R62 to R64) -/

/-- A byte is worth at most 165, with both nibbles 15. -/
theorem worth_le (b : Byte) : worth b ≤ 165 := by
  have hb := b.isLt
  rw [worth]
  omega

/-- So its worth fits a result byte. -/
theorem toNat_ofNat_worth (b : Byte) : (BitVec.ofNat 8 (worth b)).toNat = worth b := by
  have hb := worth_le b
  rw [BitVec.toNat_ofNat]
  omega

/-- A well-formed byte is worth two decimal digits. -/
theorem worth_le_of_wellFormed {b : Byte} (h : wellFormedBcd b) : worth b ≤ 99 := by
  obtain ⟨hhigh, hlow⟩ := h
  rw [worth]
  omega

section
variable {n : Nat} (h : n ≤ 99)
include h

/-- The BCD byte of a number of two digits holds the tens above the units. -/
theorem bcdByte_toNat : (bcdByte n).toNat = 16 * (n / 10) + n % 10 := by
  rw [bcdByte, BitVec.toNat_ofNat]
  omega

theorem bcdByte_wellFormed : wellFormedBcd (bcdByte n) := by
  rw [wellFormedBcd, bcdByte_toNat h]
  omega

/-- Decode after encode. -/
theorem worth_bcdByte : worth (bcdByte n) = n := by
  rw [worth, bcdByte_toNat h]
  omega

end

/-- Encode after decode. -/
theorem bcdByte_worth {b : Byte} (h : wellFormedBcd b) : bcdByte (worth b) = b := by
  apply BitVec.eq_of_toNat_eq
  rw [bcdByte_toNat (worth_le_of_wellFormed h), worth]
  obtain ⟨hhigh, hlow⟩ := h
  omega

/-- Settles O28: the shift and the bitwise or of the definitions are division by 16 and addition. -/
theorem bcdFunctionsAreAsDefined : Obligations.BcdFunctionsAreAsDefined := by
  refine ⟨fun b => ⟨rfl, bcdDec_eq_worth b, ?_⟩, bcdOk_iff, fun v hv => ?_⟩
  · rw [bcdDec_eq_worth]
    exact worth_le b
  · rw [bcdOk_iff, bcdEnc_eq_bcdByte]
    exact ⟨bcdByte_toNat hv, bcdByte_wellFormed hv⟩

/-! ### BCDDEC (R65) and BCDENC (R66) -/

theorem bcdOk_eq_false_iff (b : Byte) : bcdOk b = false ↔ ¬ wellFormedBcd b := by
  rw [← Bool.not_eq_true, bcdOk_iff]

theorem decimalOk_iff (v : Byte) : decimalOk v = true ↔ v.toNat ≤ 99 := decide_eq_true_iff

section
variable {s : State} (hs : unlatched s)
include hs

/-- BCDDEC answers the byte's worth, under OK or MalformedBcd. -/
theorem exec_bcddec (b : Byte) :
    exec (.bcddec b) s = .next (answered s (bcdStatus (bcdOk b)).code [BitVec.ofNat 8 (worth b)]) := by
  rw [execBcddec_of_not_fatal hs, bcdDecByte_eq_worth, State.respond_eq_answered]

theorem exec_bcddec_of_wellFormed {b : Byte} (h : wellFormedBcd b) :
    exec (.bcddec b) s = .next (answered s 0x00#8 [BitVec.ofNat 8 (worth b)]) := by
  rw [exec_bcddec hs, (bcdOk_iff b).mpr h]
  rfl

theorem exec_bcddec_of_malformed {b : Byte} (h : ¬ wellFormedBcd b) :
    exec (.bcddec b) s = .next (answered s 0x03#8 [BitVec.ofNat 8 (worth b)]) := by
  rw [exec_bcddec hs, (bcdOk_eq_false_iff b).mpr h]
  rfl

theorem exec_bcdenc_of_le {v : Byte} (h : v.toNat ≤ 99) :
    exec (.bcdenc v) s = .next (answered s 0x00#8 [bcdByte v.toNat]) := by
  rw [execBcdenc_of_not_fatal hs, if_pos ((decimalOk_iff v).mpr h), bcdEnc_eq_bcdByte]
  rfl

theorem exec_bcdenc_of_gt {v : Byte} (h : 99 < v.toNat) :
    exec (.bcdenc v) s = .next (answered s 0x05#8 []) := by
  rw [execBcdenc_of_not_fatal hs, if_neg (mt (decimalOk_iff v).mp (Nat.not_le.mpr h))]
  exact s.raise_eq_answered (by decide)

/-- A response writes ST.ERR only, so the next operation is not refused either (60_exceptions.md R112). -/
theorem unlatched_answered (e : Status) (rs : List Byte) : unlatched (answered s e.code rs) :=
  (s.setErr_fatal e).trans hs

end

/-- Settles O36: the status is that of the byte's form, the result its worth under both. -/
theorem bcddecAnswersTheDecimalWorth : Obligations.BcddecAnswersTheDecimalWorth :=
  ⟨fun b => decode_encode (i := .bcddec b) rfl,
    fun _ _ hs => ⟨exec_bcddec_of_wellFormed hs, exec_bcddec_of_malformed hs⟩,
    fun _ => haltedWhenLatched_of_ne_status (by simp),
    onlyWithOperands_of_fixed (m := .bcddec) (by decide) fun _ => rfl⟩

/-- Settles O37: the range test is the one of the spec, and 100 is the first value refused. -/
theorem bcdencAnswersTheBcdByte : Obligations.BcdencAnswersTheBcdByte :=
  ⟨fun v => decode_encode (i := .bcdenc v) rfl,
    fun _ _ hs => ⟨exec_bcdenc_of_le hs, exec_bcdenc_of_gt hs⟩,
    fun _ => haltedWhenLatched_of_ne_status (by simp),
    onlyWithOperands_of_fixed (m := .bcdenc) (by decide) fun _ => rfl⟩

/-! ### Encode and decode are inverse (R67) -/

section
variable {s : State} (hs : unlatched s)
include hs

/-- BCDENC, then BCDDEC of its result. -/
theorem bcddec_after_bcdenc {v : Byte} (hv : v.toNat ≤ 99) : ∃ b t u,
    responds (.bcdenc v) s t [0x00#8, b] ∧ responds (.bcddec b) t u [0x00#8, v] := by
  have hdec := exec_bcddec_of_wellFormed (unlatched_answered hs .ok [bcdByte v.toNat]) (bcdByte_wellFormed hv)
  rw [worth_bcdByte hv, BitVec.ofNat_toNat, BitVec.setWidth_eq] at hdec
  exact ⟨_, _, _, responds_answered (exec_bcdenc_of_le hs hv), responds_answered hdec⟩

/-- BCDENC of a byte's worth, when it has two digits, answers the BCD byte of that worth. -/
theorem exec_bcdenc_worth {b : Byte} (h : worth b ≤ 99) :
    exec (.bcdenc (BitVec.ofNat 8 (worth b))) s = .next (answered s 0x00#8 [bcdByte (worth b)]) := by
  have henc := exec_bcdenc_of_le hs (v := BitVec.ofNat 8 (worth b)) (by rwa [toNat_ofNat_worth])
  rwa [toNat_ofNat_worth] at henc

/-- BCDDEC of a well-formed byte, then BCDENC of its result. -/
theorem bcdenc_after_bcddec {b : Byte} (hb : wellFormedBcd b) : ∃ v t u,
    responds (.bcddec b) s t [0x00#8, v] ∧ responds (.bcdenc v) t u [0x00#8, b] := by
  have henc := exec_bcdenc_worth (unlatched_answered hs .ok [BitVec.ofNat 8 (worth b)]) (worth_le_of_wellFormed hb)
  rw [bcdByte_worth hb] at henc
  exact ⟨_, _, _, responds_answered (exec_bcddec_of_wellFormed hs hb), responds_answered henc⟩

/-- BCDDEC of a malformed byte, then BCDENC of its result: refused when it is over 99, else a well-formed byte, which the first is not. -/
theorem bcdenc_after_malformed_bcddec {b : Byte} (hb : ¬ wellFormedBcd b) : ∃ v t u,
    responds (.bcddec b) s t [0x03#8, v] ∧
      ((99 < worth b ∧ responds (.bcdenc v) t u [0x05#8]) ∨
        (worth b ≤ 99 ∧ ∃ b', b' ≠ b ∧ wellFormedBcd b' ∧ responds (.bcdenc v) t u [0x00#8, b'])) := by
  have hdec := responds_answered (exec_bcddec_of_malformed hs hb)
  have ht : unlatched (answered s 0x03#8 [BitVec.ofNat 8 (worth b)]) := unlatched_answered hs .malformedBcd _
  rcases Nat.lt_or_ge 99 (worth b) with hgt | hle
  · have henc := exec_bcdenc_of_gt ht (v := BitVec.ofNat 8 (worth b)) (by rwa [toNat_ofNat_worth])
    exact ⟨_, _, _, hdec, .inl ⟨hgt, responds_answered henc⟩⟩
  · have hform := bcdByte_wellFormed hle
    have hne : bcdByte (worth b) ≠ b := fun heq => hb (heq ▸ hform)
    exact ⟨_, _, _, hdec, .inr ⟨hle, _, hne, hform, responds_answered (exec_bcdenc_worth ht hle)⟩⟩

end

/-- Settles O29: the laws of the functions, and after each operation the latch is still clear, so the other one runs on its result. -/
theorem bcdEncodeAndDecodeAreInverse : Obligations.BcdEncodeAndDecodeAreInverse := by
  simp only [Obligations.BcdEncodeAndDecodeAreInverse, bcdOk_iff, bcdOk_eq_false_iff, bcdDec_eq_worth,
    bcdEnc_eq_bcdByte]
  exact ⟨fun v hv => ⟨bcdByte_wellFormed hv, worth_bcdByte hv⟩,
    fun b hb => ⟨worth_le_of_wellFormed hb, bcdByte_worth hb⟩,
    fun s v hs => bcddec_after_bcdenc hs,
    fun s b hs => bcdenc_after_bcddec hs,
    fun s b hs => bcdenc_after_malformed_bcddec hs⟩

end Sys2Proof.Machine
end

section
/-! PROOFS. The statement of 10_state.md on the write sets of the operations (R28). -/

namespace Sys2Proof.Machine

open Sys2Proof.Reading

/-! ### ST after a frame is stored (R20, 43_frame.md R78) -/

/-- Storing a frame writes ST as a response under OK does. -/
theorem State.framed_st (s : State) (f : List Byte) : (s.framed f).st = (s.setErr .ok).st :=
  (BitVec.or_zero).symm

theorem State.framed_fatal (s : State) (f : List Byte) : (s.framed f).fatal = s.fatal :=
  (congrArg (BitVec.getLsbD · 7) (s.framed_st f)).trans (s.setErr_fatal .ok)

/-! ### What an operation writes in ST (R20 to R22) -/

/-- An operation keeps ST.FATAL, or it is a constant encoder that fails with ConfigurationError. -/
theorem exec_fatal_cases {i : Instr} {s t : State} (h : exec i s = .next t) :
    t.fatal = s.fatal ∨
    (i.mnemonic ∈ constantEncoders ∧
      t = (s.setFatal.setErr .configurationError).emit [Status.code .configurationError]) := by
  obtain ⟨-, rfl⟩ | ⟨-, -, rfl⟩ | ⟨-, -, heff⟩ := exec_next_cases h
  · exact .inl rfl
  · exact .inl rfl
  · cases heff with
    | responded e _ _ _ _ ht => subst ht; exact .inl (s.setErr_fatal e)
    | constantRefused hm ht => exact .inr ⟨hm, ht⟩
    | stored _ f _ ht => subst ht; exact .inl (s.framed_fatal f)

/-- Bits 6 to 3 are among those that a write of ST.ERR leaves. -/
theorem State.setErr_reservedBits (s : State) (e : Status) : (s.setErr e).st &&& 0x78#8 = s.st &&& 0x78#8 := by
  calc (s.setErr e).st &&& 0x78#8
      = (s.setErr e).st &&& 0xF8#8 &&& 0x78#8 := by rw [BitVec.and_assoc]; rfl
    _ = s.st &&& 0xF8#8 &&& 0x78#8 := by rw [s.setErr_upperBits e]
    _ = s.st &&& 0x78#8 := by rw [BitVec.and_assoc]; rfl

/-- Nor does ST.FATAL lie among them. -/
theorem State.setFatal_reservedBits (s : State) : s.setFatal.st &&& 0x78#8 = s.st &&& 0x78#8 := by
  rw [State.setFatal_st, BitVec.and_or_distrib_right]
  exact BitVec.or_zero

/-- No operation writes the reserved bits of ST. -/
theorem exec_reservedBits {i : Instr} {s t : State} (h : exec i s = .next t) :
    t.st &&& 0x78#8 = s.st &&& 0x78#8 := by
  obtain ⟨-, rfl⟩ | ⟨-, -, rfl⟩ | ⟨-, -, heff⟩ := exec_next_cases h
  · rfl
  · rfl
  · cases heff with
    | responded e _ _ _ _ ht => subst ht; exact s.setErr_reservedBits e
    | constantRefused _ ht => subst ht; exact (s.setFatal.setErr_reservedBits _).trans s.setFatal_reservedBits
    | stored _ f _ ht => subst ht; rw [State.framed_st]; exact s.setErr_reservedBits .ok

/-! ### The response tells what was written (60_exceptions.md R111, R112) -/

/-- One response is given; its status is OK when the buffer changed, and ConfigurationError when ST.FATAL did. -/
theorem exec_response {i : Instr} {s t : State} (h : exec i s = .next t) :
    ∃ (code : Byte) (results : List Byte), t.responses = s.responses ++ [code :: results] ∧
      (t.frame ≠ s.frame ∨ t.flen ≠ s.flen → code = 0x00#8) ∧ (t.fatal ≠ s.fatal → code = 0x01#8) := by
  obtain ⟨-, rfl⟩ | ⟨-, -, rfl⟩ | ⟨-, -, heff⟩ := exec_next_cases h
  · exact ⟨_, _, rfl, fun _ => rfl, fun hfatal => absurd rfl hfatal⟩
  · exact ⟨_, _, rfl, by simp, by simp⟩
  · cases heff with
    | responded e rs _ _ _ ht => subst ht; exact ⟨_, _, rfl, by simp, by simp⟩
    | constantRefused _ ht => subst ht; exact ⟨_, _, rfl, by simp, fun _ => rfl⟩
    | stored _ f _ ht => subst ht; exact ⟨_, _, rfl, fun _ => rfl, fun hfatal => absurd (s.framed_fatal f) hfatal⟩

/-- Settles O20: each clause is one of the case lemmas on F and FLEN, on ST, and on the response. -/
theorem operationsWriteOnlyTheirWriteSet : Obligations.OperationsWriteOnlyTheirWriteSet := by
  intro i s t h
  obtain ⟨hpending, -⟩ := exec_addsResponses h
  refine ⟨exec_cfgMaxLen h, hpending, ?_, fun hm => ?_, fun hm => ?_, exec_reservedBits h, exec_response h⟩
  · rintro rfl
    cases h
    rfl
  · obtain hkept | ⟨hwriter, -⟩ := exec_buffer_cases h
    · exact hkept
    · exact absurd hwriter hm
  · obtain hkept | ⟨hencoder, -⟩ := exec_fatal_cases h
    · exact hkept
    · exact absurd hencoder hm

end Sys2Proof.Machine
end

section
/-! PROOFS. The statement of 44_typed_fields.md that timestamps and values round trip, as functions and through the buffer (R97). -/

namespace Sys2Proof.Machine

open Sys2Proof.Reading

/-! ### Two BCD bytes as one number (R85) -/

/-- Decode after encode, over two bytes. -/
theorem worth2_bcdByte {n : Nat} (h : n ≤ 9999) : worth2 (bcdByte (n / 100)) (bcdByte (n % 100)) = n := by
  rw [worth2, worth_bcdByte (by omega), worth_bcdByte (by omega)]
  omega

section
variable {high low : Byte} (hlow : wellFormedBcd low)
include hlow

/-- The parts of two bytes' worth are the bytes' own. -/
theorem worth2_div : worth2 high low / 100 = worth high := by
  have hle := worth_le_of_wellFormed hlow
  rw [worth2]
  omega

theorem worth2_mod : worth2 high low % 100 = worth low := by
  have hle := worth_le_of_wellFormed hlow
  rw [worth2]
  omega

end

theorem toNat_ofNat_worth2 (high low : Byte) : (BitVec.ofNat 16 (worth2 high low)).toNat = worth2 high low :=
  Nat.mod_eq_of_lt (worth2_lt high low)

/-! ### Encode and decode of the two types (R86, R87) -/

section
variable {t : Timestamp} (ht : encodable t)
include ht

theorem tsEnc_wellFormed : wellFormedTs (tsEnc t) := by
  obtain ⟨hyear, hmonth, hday, hhour, hminute⟩ := ht
  rw [wellFormedTs, tsEnc_bytes]
  simp only [timestampBytes, List.forall_mem_cons]
  exact ⟨bcdByte_wellFormed (by omega), bcdByte_wellFormed (by omega), bcdByte_wellFormed hmonth, bcdByte_wellFormed hday,
    bcdByte_wellFormed hhour, bcdByte_wellFormed hminute, by simp⟩

theorem tsDec_tsEnc : tsDec (tsEnc t) = t := by
  obtain ⟨hyear, hmonth, hday, hhour, hminute⟩ := ht
  simp only [tsDec, tsEnc, comb_eq_worth2, bcdDecByte_eq_worth, bcdEnc_eq_bcdByte, worth2_bcdByte hyear,
    worth_bcdByte hmonth, worth_bcdByte hday, worth_bcdByte hhour, worth_bcdByte hminute, BitVec.ofNat_toNat,
    BitVec.setWidth_eq]

end

theorem tsEnc_tsDec {p : TsPayload} (h : wellFormedTs p) : tsEnc (tsDec p) = p := by
  simp only [wellFormedTs, TsPayload.bytes, List.forall_mem_cons] at h
  obtain ⟨hyearHigh, hyearLow, hmonth, hday, hhour, hminute, -⟩ := h
  simp only [tsEnc, tsDec, comb_eq_worth2, bcdDecByte_eq_worth, bcdEnc_eq_bcdByte, toNat_ofNat_worth2, toNat_ofNat_worth,
    worth2_div hyearLow, worth2_mod hyearLow, bcdByte_worth hyearHigh, bcdByte_worth hyearLow, bcdByte_worth hmonth,
    bcdByte_worth hday, bcdByte_worth hhour, bcdByte_worth hminute]

section
variable {v : Half} (hv : v.toNat ≤ 9999)
include hv

theorem v16Enc_wellFormed : wellFormedBcd (v16Enc v).high ∧ wellFormedBcd (v16Enc v).low := by
  simp only [v16Enc, bcdEnc_eq_bcdByte]
  exact ⟨bcdByte_wellFormed (by omega), bcdByte_wellFormed (by omega)⟩

theorem v16Dec_v16Enc : v16Dec (v16Enc v) = v := by
  simp only [v16Dec, v16Enc, comb_eq_worth2, bcdEnc_eq_bcdByte, worth2_bcdByte hv, BitVec.ofNat_toNat, BitVec.setWidth_eq]

end

theorem v16Enc_v16Dec {p : ValuePayload} (hhigh : wellFormedBcd p.high) (hlow : wellFormedBcd p.low) :
    v16Enc (v16Dec p) = p := by
  simp only [v16Enc, v16Dec, comb_eq_worth2, bcdEnc_eq_bcdByte, toNat_ofNat_worth2, worth2_div hlow, worth2_mod hlow,
    bcdByte_worth hhigh, bcdByte_worth hlow]

/-! ### A stored frame read back (43_frame.md R78, R82) -/

section
variable {s : State} {f : List Byte} (hwf : s.frame.wf = true) (hfit : f.length ≤ s.maxLen)
include hfit

theorem State.framed_flen_toNat : (s.framed f).flen.toNat = f.length :=
  State.toNat_ofNat_length hfit

include hwf

theorem State.framed_readByte {k : Nat} (hk : k < s.maxLen) : (s.framed f).readByte k = f.getD k 0x00#8 :=
  (Memory.read_storeFrame hwf hfit k).trans (if_pos hk)

/-- The bytes of the buffer up to FLEN are the frame that was put there. -/
theorem State.framed_readN : (s.framed f).frame.readN 0 f.length = f := by
  apply List.ext_getElem (by simp)
  intro i hi hif
  have hbyte := Memory.readN_getD (s.framed f).frame 0 f.length i hif
  rw [Nat.zero_add, show (s.framed f).frame.read i = _ from State.framed_readByte hwf hfit (by omega)] at hbyte
  simpa [List.getD_eq_getElem?_getD, hi, hif] using hbyte

/-- FREAD after a frame was stored answers its length and its bytes. -/
theorem exec_fread_framed (hs : unlatched s) :
    exec .fread (s.framed f) =
      .next (answered (s.framed f) 0x00#8 (BitVec.ofNat 8 f.length :: f)) := by
  have hread := exec_fread_of_le (s := s.framed f) ((s.framed_fatal f).trans hs)
    ((State.framed_flen_toNat hfit).trans_le hfit)
  rwa [State.framed_flen_toNat hfit, State.framed_readN hwf hfit] at hread

end

/-! ### Through the buffer (R93 to R96) -/

section
variable {s : State} (hs : unlatched s)
include hs

theorem exec_tsput_of_encodable {ts : Timestamp} (hcap : 7 ≤ s.maxLen) (hok : encodable ts) (c : Byte) :
    exec (.tsput c ts) s = .next (s.framed (c :: timestampBytes ts)) := by
  rw [execTsput_of_not_fatal hs, if_neg (by omega), if_pos ((timestampOk_iff ts).mpr hok), tsEnc_bytes]
  exact State.replaceFrame_eq hcap

theorem exec_v16put_of_encodable {v : Half} (hcap : 3 ≤ s.maxLen) (hok : v.toNat ≤ 9999) (c : Byte) :
    exec (.v16put c v) s = .next (s.framed (c :: valueBytes v)) := by
  rw [execV16put_of_not_fatal hs, if_neg (by omega), if_pos ((decimal16Ok_iff v).mpr hok), v16Enc_bytes]
  exact State.replaceFrame_eq hcap

end

/-- A 16-bit number travels as its two bytes, high byte first. -/
theorem hi8_lo8_eq (v : Half) : [hi8 v, lo8 v] = twoBytes v.toNat := by
  have h := hi8_lo8_ofNat v.isLt
  rwa [BitVec.ofNat_toNat, BitVec.setWidth_eq] at h

theorem Timestamp.bytes_eq (t : Timestamp) :
    t.bytes = twoBytes t.year.toNat ++ [t.month, t.day, t.hour, t.minute] := by
  rw [← hi8_lo8_eq]
  rfl

section
variable {s : State} (hwf : s.frame.wf = true)
include hwf

/-- A payload stored behind a command byte is the frame's timestamp field (20_memory.md R31). -/
theorem State.framed_tsField (hcap : 7 ≤ s.maxLen) (c : Byte) (p : TsPayload) :
    tsFieldOf (s.framed (c :: p.bytes)) = p := by
  have hbyte {k : Nat} (hk : k < 7) : (s.framed (c :: p.bytes)).readByte k = (c :: p.bytes).getD k 0x00#8 :=
    State.framed_readByte (f := c :: p.bytes) hwf hcap (by omega)
  rw [tsFieldOf, hbyte (k := 1) (by omega), hbyte (k := 2) (by omega), hbyte (k := 3) (by omega),
    hbyte (k := 4) (by omega), hbyte (k := 5) (by omega), hbyte (k := 6) (by omega)]
  rfl

/-- Likewise the value field. -/
theorem State.framed_valueField (hcap : 3 ≤ s.maxLen) (c : Byte) (p : ValuePayload) :
    ⟨(s.framed (c :: p.bytes)).readByte 1, (s.framed (c :: p.bytes)).readByte 2⟩ = p := by
  have hbyte {k : Nat} (hk : k < 3) : (s.framed (c :: p.bytes)).readByte k = (c :: p.bytes).getD k 0x00#8 :=
    State.framed_readByte (f := c :: p.bytes) hwf hcap (by omega)
  rw [hbyte (k := 1) (by omega), hbyte (k := 2) (by omega)]
  rfl

end

section
variable {s : State} (hs : unlatched s) (hwf : s.frame.wf = true)
include hs hwf

/-- TSGET after TSPUT. -/
theorem exec_tsget_framed {ts : Timestamp} (hcap : 7 ≤ s.maxLen) (hok : encodable ts) (c : Byte) :
    exec .tsget (s.framed (c :: timestampBytes ts)) =
      .next (answered (s.framed (c :: timestampBytes ts)) 0x00#8
        (twoBytes ts.year.toNat ++ [ts.month, ts.day, ts.hour, ts.minute])) := by
  have hlen : (s.framed (c :: timestampBytes ts)).flen.toNat = 7 := State.framed_flen_toNat hcap
  rw [exec_tsget_of_le ((s.framed_fatal _).trans hs) hlen.ge (hlen.trans_le hcap), ← tsEnc_bytes,
    State.framed_tsField hwf hcap, State.respondTimestamp, (tsOk_iff _).mpr (tsEnc_wellFormed hok), tsDec_tsEnc hok,
    Timestamp.bytes_eq]
  rfl

/-- V16GET after V16PUT. -/
theorem exec_v16get_framed {v : Half} (hcap : 3 ≤ s.maxLen) (hok : v.toNat ≤ 9999) (c : Byte) :
    exec .v16get (s.framed (c :: valueBytes v)) =
      .next (answered (s.framed (c :: valueBytes v)) 0x00#8 (twoBytes v.toNat)) := by
  have hlen : (s.framed (c :: valueBytes v)).flen.toNat = 3 := State.framed_flen_toNat hcap
  rw [exec_v16get_of_le ((s.framed_fatal _).trans hs) hlen.ge (hlen.trans_le hcap), ← v16Enc_bytes,
    State.framed_valueField hwf hcap, State.respondValue,
    (v16Ok_iff _).mpr (v16Enc_wellFormed hok), v16Dec_v16Enc hok, hi8_lo8_eq]
  rfl

end

/-- Settles O33: the laws of the functions, and a stored frame is read back whole. -/
theorem typedFieldsRoundTrip : Obligations.TypedFieldsRoundTrip := by
  refine ⟨fun t ht => ⟨(tsOk_iff _).mpr (tsEnc_wellFormed ht), tsDec_tsEnc ht⟩, fun p hp => tsEnc_tsDec ((tsOk_iff p).mp hp),
    fun v hv => v16Dec_v16Enc hv, fun p hp => ?_, fun s c ts hs hwf hcap hok => ?_, fun s c v hs hwf hcap hok => ?_⟩
  · obtain ⟨hhigh, hlow⟩ := (v16Ok_iff p).mp hp
    exact v16Enc_v16Dec hhigh hlow
  · exact ⟨_, _, _, exec_tsput_of_encodable hs hcap hok c, responds_answered (exec_tsget_framed hs hwf hcap hok c),
      responds_answered (exec_fread_framed (f := c :: timestampBytes ts) hwf hcap hs)⟩
  · exact ⟨_, _, exec_v16put_of_encodable hs hcap hok c, responds_answered (exec_v16get_framed hs hwf hcap hok c)⟩

end Sys2Proof.Machine
end

section
/-! PROOFS. The statements of 41_address.md on ADRENC (R70) and on the two operations as inverses (R72). -/

namespace Sys2Proof.Machine

open Sys2Proof.Reading

/-! ### A constant encoder's failure (60_exceptions.md R101) -/

/-- A ConfigurationError sets FATAL before ERR is written, and the write of ERR leaves it set. -/
theorem State.raise_configurationError_eq (s : State) :
    s.raise .configurationError = .next (configurationFailed s) := by
  have hst : (s.st ||| 0x80#8) &&& 0xF8#8 ||| 0x01#8 = s.st &&& 0xF8#8 ||| 0x81#8 := by
    rw [BitVec.and_or_distrib_right, BitVec.or_assoc]
    rfl
  rw [State.raise_configurationError, State.respond_eq, State.setFatal_st, Status.code, hst]
  rfl

/-! ### The address byte and its two halves (30_encoding.md R45) -/

theorem nibbleOk_iff (b : Byte) : nibbleOk b = true ↔ b.toNat ≤ 15 := decide_eq_true_iff

/-- The address byte of operands in range, in the words of the statements. -/
theorem packAddress_eq {t i : Byte} (ht : t.toNat ≤ 15) (hi : i.toNat ≤ 15) :
    packAddress t i = BitVec.ofNat 8 (16 * t.toNat + i.toNat) := by
  rw [← packAddress_toNat ht hi, BitVec.ofNat_toNat, BitVec.setWidth_eq]

theorem addressClass_toNat (a : Byte) : (addressClass a).toNat = a.toNat / 16 := by
  have ha := a.isLt
  rw [addressClass_eq, BitVec.toNat_ofNat]
  omega

theorem addressInstance_toNat (a : Byte) : (addressInstance a).toNat = a.toNat % 16 := by
  rw [addressInstance_eq, BitVec.toNat_ofNat]
  omega

theorem addressClass_le (a : Byte) : (addressClass a).toNat ≤ 15 := by
  have ha := a.isLt
  rw [addressClass_toNat]
  omega

theorem addressInstance_le (a : Byte) : (addressInstance a).toNat ≤ 15 := by
  rw [addressInstance_toNat]
  omega

section
variable {t i : Byte} (ht : t.toNat ≤ 15) (hi : i.toNat ≤ 15)
include ht hi

theorem addressClass_packAddress : addressClass (packAddress t i) = t := by
  apply BitVec.eq_of_toNat_eq
  rw [addressClass_toNat, packAddress_toNat ht hi]
  omega

theorem addressInstance_packAddress : addressInstance (packAddress t i) = i := by
  apply BitVec.eq_of_toNat_eq
  rw [addressInstance_toNat, packAddress_toNat ht hi]
  omega

end

/-- An address byte is put together again from its halves. -/
theorem packAddress_addressClass_addressInstance (a : Byte) :
    packAddress (addressClass a) (addressInstance a) = a := by
  apply BitVec.eq_of_toNat_eq
  rw [packAddress_toNat (addressClass_le a) (addressInstance_le a), addressClass_toNat, addressInstance_toNat]
  exact Nat.div_add_mod _ 16

/-! ### ADRENC (R70) -/

/-- ADRENC of an operand over 15 fails; it is never masked. -/
theorem exec_adrenc_of_gt {s : State} (hs : unlatched s) {t i : Byte} (h : 15 < t.toNat ∨ 15 < i.toNat) :
    exec (.adrenc t i) s = .next (configurationFailed s) := by
  have hrange : ¬ (nibbleOk t && nibbleOk i) = true := by
    rw [Bool.and_eq_true, nibbleOk_iff, nibbleOk_iff]
    omega
  rw [execAdrenc_of_not_fatal hs, if_neg hrange, State.raise_configurationError_eq]

/-- Settles O38: the range test splits the operands, and a failure sets the latch. -/
theorem adrencAnswersTheAddress : Obligations.AdrencAnswersTheAddress := by
  refine ⟨fun t i => decode_encode (i := .adrenc t i) rfl,
    fun s t i hs => ⟨fun ⟨ht, hi⟩ => ?_, exec_adrenc_of_gt hs⟩,
    fun t i => haltedWhenLatched_of_ne_status (by simp),
    onlyWithOperands_of_fixed (m := .adrenc) (by decide) fun _ => rfl⟩
  rw [exec_adrenc_of_le hs ht hi, packAddress_eq ht hi]

/-! ### Encode and decode are inverse (R72) -/

section
variable {s : State} (hs : unlatched s)
include hs

/-- ADRDEC answers the two halves of the byte. -/
theorem exec_adrdec (a : Byte) :
    exec (.adrdec a) s = .next (answered s 0x00#8 [addressClass a, addressInstance a]) := by
  rw [execAdrdec_of_not_fatal hs, State.respond_eq_answered]
  rfl

/-- ADRENC, then ADRDEC of its result. -/
theorem adrdec_after_adrenc {t i : Byte} (ht : t.toNat ≤ 15) (hi : i.toNat ≤ 15) : ∃ a u w,
    responds (.adrenc t i) s u [0x00#8, a] ∧ responds (.adrdec a) u w [0x00#8, t, i] := by
  have hdec := exec_adrdec (unlatched_answered hs .ok [packAddress t i]) (packAddress t i)
  rw [addressClass_packAddress ht hi, addressInstance_packAddress ht hi] at hdec
  exact ⟨_, _, _, responds_answered (exec_adrenc_of_le hs ht hi), responds_answered hdec⟩

/-- ADRDEC, then ADRENC of its two results, which are in range. -/
theorem adrenc_after_adrdec (a : Byte) : ∃ t i u w, t.toNat ≤ 15 ∧ i.toNat ≤ 15 ∧
    responds (.adrdec a) s u [0x00#8, t, i] ∧ responds (.adrenc t i) u w [0x00#8, a] := by
  have hhigh := addressClass_le a
  have hlow := addressInstance_le a
  have henc := exec_adrenc_of_le (unlatched_answered hs .ok [addressClass a, addressInstance a]) hhigh hlow
  rw [packAddress_addressClass_addressInstance] at henc
  exact ⟨_, _, _, _, hhigh, hlow, responds_answered (exec_adrdec hs a), responds_answered henc⟩

end

/-- Settles O30: the halves of a packed byte are the operands, and every byte is packed from its halves. -/
theorem addressEncodeAndDecodeAreInverse : Obligations.AddressEncodeAndDecodeAreInverse :=
  ⟨fun _ _ _ hs ht hi => adrdec_after_adrenc hs ht hi, fun _ a hs => adrenc_after_adrdec hs a⟩

end Sys2Proof.Machine
end

section
/-! PROOFS. The statements of 42_command.md: CMDENC (R75), CMDDEC (R76), and that encode and decode are inverse (R77). -/

namespace Sys2Proof.Machine

open Sys2Proof.Reading

/-! ### Flags as bytes and as bits (30_encoding.md R53, R46) -/

theorem byteOfBool_eq_ite (b : Bool) : byteOfBool b = if b then 0x01#8 else 0x00#8 := by
  cases b <;> rfl

theorem byteOfDirection_eq_ite (d : Direction) :
    byteOfDirection d = if d = .hubToNode then 0x01#8 else 0x00#8 := by
  cases d <;> rfl

theorem byteOfBool_toNat_le (b : Bool) : (byteOfBool b).toNat ≤ 1 := by
  cases b <;> decide

theorem byteOfDirection_toNat_le (d : Direction) : (byteOfDirection d).toNat ≤ 1 := by
  cases d <;> decide

/-- The decoder of a Boolean operand is a left inverse. -/
theorem byteOfBool_injective : Function.Injective byteOfBool := fun b b' h =>
  Option.some.inj (by rw [← boolOfByte_byteOfBool b, h, boolOfByte_byteOfBool])

theorem byteOfDirection_injective : Function.Injective byteOfDirection := fun d d' h =>
  Option.some.inj (by rw [← directionOfByte_byteOfDirection d, h, directionOfByte_byteOfDirection])

/-- A bit of a byte, as the byte 0 or 1, is a quotient modulo 2. -/
theorem toNat_ite_getLsbD (c : Byte) (k : Nat) :
    (if c.getLsbD k then 0x01#8 else 0x00#8 : Byte).toNat = c.toNat / 2 ^ k % 2 := by
  have hbit : c.getLsbD k = decide (c.toNat / 2 ^ k % 2 = 1) := Nat.testBit_eq_decide_div_mod_eq
  rw [hbit, apply_ite BitVec.toNat]
  simp only [decide_eq_true_eq, BitVec.toNat_ofNat]
  split <;> omega

/-! ### The command byte and its three fields (30_encoding.md R46) -/

theorem commandDataPresent_toNat (c : Byte) : (byteOfBool (commandDataPresent c)).toNat = c.toNat / 128 := by
  have hc := c.isLt
  rw [byteOfBool_eq_ite, commandDataPresent, toNat_ite_getLsbD]
  omega

theorem commandDirection_toNat (c : Byte) : (byteOfDirection (commandDirection c)).toNat = c.toNat / 64 % 2 := by
  rw [commandDirection, apply_ite byteOfDirection]
  exact toNat_ite_getLsbD c 6

theorem commandCode_toNat (c : Byte) : (commandCode c).toNat = c.toNat % 64 := by
  rw [commandCode, BitVec.toNat_and]
  exact Nat.and_two_pow_sub_one_eq_mod _ 6

theorem commandCode_le (c : Byte) : (commandCode c).toNat ≤ 63 := by
  rw [commandCode_toNat]
  omega

section
variable (dp : Bool) (dir : Direction) {opc : Byte} (h : opc.toNat ≤ 63)
include h

/-- The fields of a command byte do not overlap, so they add up. -/
theorem packCommand_toNat :
    (packCommand dp dir opc).toNat = 128 * (byteOfBool dp).toNat + 64 * (byteOfDirection dir).toNat + opc.toNat := by
  have hdp := byteOfBool_toNat_le dp
  have hdir := byteOfDirection_toNat_le dir
  have hlow : (byteOfDirection dir).toNat <<< 6 ||| opc.toNat = (byteOfDirection dir).toNat * 2 ^ 6 + opc.toNat := by
    rw [← Nat.shiftLeft_add_eq_or_of_lt (by omega), Nat.shiftLeft_eq]
  calc (packCommand dp dir opc).toNat
      = (byteOfBool dp).toNat <<< 7 % 2 ^ 8 ||| (byteOfDirection dir).toNat <<< 6 % 2 ^ 8 ||| opc.toNat := by
        simp [packCommand]
    _ = (byteOfBool dp).toNat <<< 7 ||| ((byteOfDirection dir).toNat <<< 6 ||| opc.toNat) := by
        rw [Nat.mod_eq_of_lt (by rw [Nat.shiftLeft_eq]; omega), Nat.mod_eq_of_lt (by rw [Nat.shiftLeft_eq]; omega),
          Nat.or_assoc]
    _ = (byteOfBool dp).toNat * 2 ^ 7 + ((byteOfDirection dir).toNat * 2 ^ 6 + opc.toNat) := by
        rw [hlow, ← Nat.shiftLeft_add_eq_or_of_lt (by omega), Nat.shiftLeft_eq]
    _ = 128 * (byteOfBool dp).toNat + 64 * (byteOfDirection dir).toNat + opc.toNat := by omega

/-- The command byte in the words of the statements. -/
theorem packCommand_eq :
    packCommand dp dir opc =
      BitVec.ofNat 8 ((if dp then 128 else 0) + (if dir = .hubToNode then 64 else 0) + opc.toNat) := by
  have hdp : 128 * (byteOfBool dp).toNat = if dp then 128 else 0 := by cases dp <;> rfl
  have hdir : 64 * (byteOfDirection dir).toNat = if dir = .hubToNode then 64 else 0 := by cases dir <;> rfl
  rw [← hdp, ← hdir, ← packCommand_toNat dp dir h, BitVec.ofNat_toNat, BitVec.setWidth_eq]

theorem commandDataPresent_packCommand : commandDataPresent (packCommand dp dir opc) = dp := by
  have hdir := byteOfDirection_toNat_le dir
  apply byteOfBool_injective
  apply BitVec.eq_of_toNat_eq
  rw [commandDataPresent_toNat, packCommand_toNat dp dir h]
  omega

theorem commandDirection_packCommand : commandDirection (packCommand dp dir opc) = dir := by
  have hdir := byteOfDirection_toNat_le dir
  apply byteOfDirection_injective
  apply BitVec.eq_of_toNat_eq
  rw [commandDirection_toNat, packCommand_toNat dp dir h]
  omega

end

/-- A command byte is put together again from its fields. -/
theorem packCommand_commandFields (c : Byte) :
    packCommand (commandDataPresent c) (commandDirection c) (commandCode c) = c := by
  apply BitVec.eq_of_toNat_eq
  rw [packCommand_toNat _ _ (commandCode_le c), commandDataPresent_toNat, commandDirection_toNat, commandCode_toNat]
  omega

/-! ### CMDENC (R75) and CMDDEC (R76) -/

theorem sixBitOk_iff (b : Byte) : sixBitOk b = true ↔ b.toNat ≤ 63 := decide_eq_true_iff

section
variable {s : State} (hs : unlatched s)
include hs

/-- CMDENC of a code over 63 fails; it is never masked. -/
theorem exec_cmdenc_of_gt (dp : Bool) (dir : Direction) {opc : Byte} (h : 63 < opc.toNat) :
    exec (.cmdenc dp dir opc) s = .next (configurationFailed s) := by
  have hrange : ¬ sixBitOk opc = true := mt (sixBitOk_iff opc).mp (Nat.not_le.mpr h)
  rw [execCmdenc_of_not_fatal hs, if_neg hrange, State.raise_configurationError_eq]

/-- CMDDEC answers the three fields of the byte. -/
theorem exec_cmddec (c : Byte) :
    exec (.cmddec c) s = .next (answered s 0x00#8
      [byteOfBool (commandDataPresent c), byteOfDirection (commandDirection c), commandCode c]) := by
  rw [execCmddec_of_not_fatal hs, State.respond_eq_answered]
  rfl

end

/-- Settles O40: a reserved flag is refused by the decoder, and the range test of the code splits the rest. -/
theorem cmdencAnswersTheCommandByte : Obligations.CmdencAnswersTheCommandByte := by
  obtain ⟨-, hreserved⟩ := reservedFlagOperandIsIllegal
  refine ⟨fun opc => ⟨decode_encode (i := .cmdenc false .nodeToHub opc) rfl,
      decode_encode (i := .cmdenc false .hubToNode opc) rfl, decode_encode (i := .cmdenc true .nodeToHub opc) rfl,
      decode_encode (i := .cmdenc true .hubToNode opc) rfl⟩,
    fun s dp dir opc rest hflag hp hs => hreserved s dp dir opc rest hp hs hflag,
    fun s dp dir opc hs => ⟨fun hle => ?_, exec_cmdenc_of_gt hs dp dir⟩,
    fun dp dir opc => haltedWhenLatched_of_ne_status (by simp),
    onlyWithOperands_of_fixed (m := .cmdenc) (by decide) fun _ => rfl⟩
  rw [exec_cmdenc_of_le hs dp dir hle, packCommand_eq dp dir hle]

/-- Settles O41: the bits that are answered are the quotients and the remainder of the byte. -/
theorem cmddecAnswersTheThreeFields : Obligations.CmddecAnswersTheThreeFields := by
  refine ⟨fun c => decode_encode (i := .cmddec c) rfl, fun s c hs => ?_,
    fun c => haltedWhenLatched_of_ne_status (by simp),
    onlyWithOperands_of_fixed (m := .cmddec) (by decide) fun _ => rfl⟩
  rw [exec_cmddec hs, ← commandDataPresent_toNat, ← commandDirection_toNat, ← commandCode_toNat]
  simp only [BitVec.ofNat_toNat, BitVec.setWidth_eq]

/-! ### Encode and decode are inverse (R77) -/

section
variable {s : State} (hs : unlatched s)
include hs

/-- CMDENC, then CMDDEC of its result. -/
theorem cmddec_after_cmdenc (dp : Bool) (dir : Direction) {opc : Byte} (h : opc.toNat ≤ 63) : ∃ c t u,
    responds (.cmdenc dp dir opc) s t [0x00#8, c] ∧
      responds (.cmddec c) t u [0x00#8, byteOfBool dp, byteOfDirection dir, opc] := by
  have hdec := exec_cmddec (unlatched_answered hs .ok [packCommand dp dir opc]) (packCommand dp dir opc)
  rw [commandDataPresent_packCommand dp dir h, commandDirection_packCommand dp dir h,
    commandCode_packCommand dp dir h] at hdec
  exact ⟨_, _, _, responds_answered (exec_cmdenc_of_le hs dp dir h), responds_answered hdec⟩

/-- CMDDEC, then CMDENC of its three results, whose code is in range. -/
theorem cmdenc_after_cmddec (c : Byte) : ∃ dp dir opc t u, opc.toNat ≤ 63 ∧
    responds (.cmddec c) s t [0x00#8, byteOfBool dp, byteOfDirection dir, opc] ∧
      responds (.cmdenc dp dir opc) t u [0x00#8, c] := by
  have hcode := commandCode_le c
  have henc := exec_cmdenc_of_le (unlatched_answered hs .ok
    [byteOfBool (commandDataPresent c), byteOfDirection (commandDirection c), commandCode c])
    (commandDataPresent c) (commandDirection c) hcode
  rw [packCommand_commandFields] at henc
  exact ⟨_, _, _, _, _, hcode, responds_answered (exec_cmddec hs c), responds_answered henc⟩

end

/-- Settles O31: the fields of a packed byte are the operands, and every byte is packed from its fields. -/
theorem commandEncodeAndDecodeAreInverse : Obligations.CommandEncodeAndDecodeAreInverse := by
  simp only [Obligations.CommandEncodeAndDecodeAreInverse, ← byteOfBool_eq_ite, ← byteOfDirection_eq_ite]
  exact ⟨fun s dp dir opc hs h => cmddec_after_cmdenc hs dp dir h, fun s c hs => cmdenc_after_cmddec hs c⟩

end Sys2Proof.Machine
end

section
/-! PROOFS. The statements of 43_frame.md: FBUILD, FLOAD, FPARSE, FREAD and FCLR (R79 to R83), and that a frame is read back as it was built or loaded (R84). -/

namespace Sys2Proof.Machine

open Sys2Proof.Reading

/-! ### The bytes of the buffer in the words of the statements -/

theorem bytesAt_succ (s : State) (a n : Nat) : bytesAt s a (n + 1) = s.readByte a :: bytesAt s (a + 1) n := by
  simp only [bytesAt, List.range_succ_eq_map, List.map_cons, List.map_map, Nat.add_zero]
  congr 1
  exact List.map_congr_left fun j _ => congrArg s.readByte (by simp only [Nat.succ_eq_add_one]; omega)

/-- Reading n bytes upward lists them in the order of their addresses. -/
theorem readN_eq_bytesAt (s : State) (a n : Nat) : s.frame.readN a n = bytesAt s a n := by
  induction n generalizing a with
  | zero => rfl
  | succ n ih => rw [bytesAt_succ, ← ih]; rfl

/-! ### What each operation does without the latch (R79 to R83) -/

section
variable {s : State} (hs : unlatched s)
include hs

theorem exec_fbuild_of_le {p : List Byte} (hfit : p.length + 1 ≤ s.maxLen) (c : Byte) :
    exec (.fbuild c p) s = .next (s.framed (c :: p)) := by
  rw [execFbuild_of_not_fatal hs, if_neg (Nat.not_lt.mpr hfit)]
  exact State.replaceFrame_eq hfit

theorem exec_fbuild_of_gt {p : List Byte} (hbig : s.maxLen < p.length + 1) (c : Byte) :
    exec (.fbuild c p) s = .next (answered s 0x02#8 []) := by
  rw [execFbuild_of_not_fatal hs, if_pos hbig]
  exact s.raise_eq_answered (by decide)

theorem exec_fload_of_le {f : List Byte} (hne : 1 ≤ f.length) (hfit : f.length ≤ s.maxLen) :
    exec (.fload f) s = .next (s.framed f) := by
  rw [execFload_of_not_fatal hs, if_neg (by omega)]
  exact State.replaceFrame_eq hfit

theorem exec_fload_of_badLength {f : List Byte} (hbad : f.length = 0 ∨ s.maxLen < f.length) :
    exec (.fload f) s = .next (answered s 0x04#8 []) := by
  rw [execFload_of_not_fatal hs, if_pos hbad]
  exact s.raise_eq_answered (by decide)

/-- FPARSE of a frame within the buffer: both of its reads stay below FLEN. -/
theorem exec_fparse_of_le (hne : 1 ≤ s.flen.toNat) (hlen : s.flen.toNat ≤ s.maxLen) :
    exec .fparse s = .next (answered s 0x00#8
      (s.readByte 0 :: BitVec.ofNat 8 (s.flen.toNat - 1) :: s.frame.readN 1 (s.flen.toNat - 1))) := by
  rw [execFparse_of_not_fatal hs, if_neg (by omega), State.withBytes_eq (by omega), State.withBytes_eq (by omega)]
  rfl

theorem exec_fclr_of_unlatched : exec .fclr s = .next (s.framed []) := by
  rw [execFclr_of_not_fatal hs]
  exact State.replaceFrame_eq (Nat.zero_le _)

end

/-! ### The statements on the five operations -/

/-- Settles O42: one test of the capacity, and the length byte of the packet counts the payload. -/
theorem fbuildStoresTheFrame : Obligations.FbuildStoresTheFrame := by
  refine ⟨fun c n p hp => decode_of_requestLength (m := .fbuild) ((requestLength_cv_iff _).mpr ⟨c, n, p, rfl, hp⟩),
    fun s c p hs hwf => ⟨fun hfit => ?_, fun hbig => exec_fbuild_of_gt hs hbig c⟩,
    fun c p => haltedWhenLatched_of_ne_status (by simp), fun s args rest hp hs hform => ?_⟩
  · exact ⟨_, exec_fbuild_of_le hs hfit c, State.framed_frameStored hwf hfit⟩
  · have hlen := mt (requestLength_cv_iff args).mp hform
    exact step_illegal hp (decode_of_ne_requestLength (m := .fbuild) hlen) hs (by decide)

/-- Settles O43: the two lengths that are refused are those outside 1 to MAXLEN. -/
theorem floadStoresTheFrame : Obligations.FloadStoresTheFrame := by
  refine ⟨fun l f hf => decode_of_requestLength (m := .fload) ((requestLength_v_iff _).mpr ⟨l, f, rfl, hf⟩),
    fun s f hs hwf => ⟨fun ⟨hne, hfit⟩ => ?_, exec_fload_of_badLength hs⟩,
    fun f => haltedWhenLatched_of_ne_status (by simp), fun s args rest hp hs hform => ?_⟩
  · exact ⟨_, exec_fload_of_le hs hne hfit, State.framed_frameStored hwf hfit⟩
  · have hlen := mt (requestLength_v_iff args).mp hform
    exact step_illegal hp (decode_of_ne_requestLength (m := .fload) hlen) hs (by decide)

/-- Settles O44: FLEN = 0 is the only length FPARSE refuses; else its reads are inside the buffer. -/
theorem fparseSplitsTheFrame : Obligations.FparseSplitsTheFrame := by
  refine ⟨decode_encode (i := .fparse) rfl, fun s hs => ⟨exec_fparse_empty hs, fun ⟨hne, hlen⟩ => ?_⟩,
    haltedWhenLatched_of_ne_status (by simp), onlyWithOperands_of_fixed (m := .fparse) (by decide) fun _ => rfl⟩
  rw [exec_fparse_of_le hs hne hlen, readN_eq_bytesAt]

/-- Settles O45: the whole frame is read and only ST.ERR is written. -/
theorem freadAnswersTheFrame : Obligations.FreadAnswersTheFrame := by
  refine ⟨decode_encode (i := .fread) rfl, fun s hs hlen => ?_,
    haltedWhenLatched_of_ne_status (by simp), onlyWithOperands_of_fixed (m := .fread) (by decide) fun _ => rfl⟩
  rw [exec_fread_of_le hs hlen, readN_eq_bytesAt]

/-- Settles O46: FCLR stores the empty frame, which fits every buffer. -/
theorem fclrEmptiesTheBuffer : Obligations.FclrEmptiesTheBuffer :=
  ⟨decode_encode (i := .fclr) rfl,
    fun _ hs hwf => ⟨_, exec_fclr_of_unlatched hs, State.framed_frameStored hwf (Nat.zero_le _)⟩,
    haltedWhenLatched_of_ne_status (by simp), onlyWithOperands_of_fixed (m := .fclr) (by decide) fun _ => rfl⟩

/-! ### A frame is read back as it was built or loaded (R84) -/

/-- Storing a frame over itself changes no byte, and equal contents are equal data. -/
theorem Memory.storeFrame_twice {m : Memory} (hm : m.wf = true) {n : Nat} {f : List Byte} (h : f.length ≤ n) :
    (m.writeN 0 (padFrame n f)).writeN 0 (padFrame n f) = m.writeN 0 (padFrame n f) := by
  have hwf := Memory.writeN_wf hm 0 (padFrame n f)
  refine Memory.eq_of_read_eq (Memory.writeN_wf hwf _ _) hwf fun k => ?_
  rw [Memory.read_storeFrame hwf h]
  split
  · next hk => exact ((Memory.read_storeFrame hm h k).trans (if_pos hk)).symm
  · rfl

section
variable {s : State} {c : Byte} {p : List Byte} (hs : unlatched s) (hwf : s.frame.wf = true)
  (hfit : p.length + 1 ≤ s.maxLen)
include hs hwf hfit

/-- FPARSE after a frame was stored answers its command byte, its payload's length and its payload. -/
theorem exec_fparse_framed :
    exec .fparse (s.framed (c :: p)) =
      .next (answered (s.framed (c :: p)) 0x00#8 (c :: BitVec.ofNat 8 p.length :: p)) := by
  have hflen : (s.framed (c :: p)).flen.toNat = p.length + 1 := State.framed_flen_toNat (f := c :: p) hfit
  obtain ⟨hc, hp⟩ : (s.framed (c :: p)).readByte 0 = c ∧ (s.framed (c :: p)).frame.readN 1 p.length = p :=
    List.cons.inj (State.framed_readN (f := c :: p) hwf hfit)
  rw [exec_fparse_of_le ((s.framed_fatal _).trans hs) (by omega) (hflen.trans_le hfit), hflen, Nat.add_sub_cancel,
    hc, hp]

/-- FLOAD of the frame that is in the buffer leaves F and FLEN as they are. -/
theorem exec_fload_framed (e : Status) (rs : List Byte) :
    ∃ w, exec (.fload (c :: p)) (answered (s.framed (c :: p)) e.code rs) = .next w ∧
      w.frame = (s.framed (c :: p)).frame ∧ w.flen = (s.framed (c :: p)).flen :=
  ⟨_, exec_fload_of_le (f := c :: p) (unlatched_answered ((s.framed_fatal _).trans hs) e rs) (by simp) hfit,
    Memory.storeFrame_twice hwf hfit, rfl⟩

end

/-- Settles O32: FBUILD and FLOAD leave the same state, in which the frame is read back. -/
theorem framesReadBackAsBuiltOrLoaded : Obligations.FramesReadBackAsBuiltOrLoaded := by
  refine ⟨fun s c p hs hwf hfit => ?_, fun s c f hs hwf hfit => ?_⟩
  · have hread := exec_fread_framed (f := c :: p) hwf hfit hs
    obtain ⟨w, hload, hframe, hflen⟩ := exec_fload_framed hs hwf hfit .ok (BitVec.ofNat 8 (c :: p).length :: c :: p)
    exact ⟨_, _, _, w, exec_fbuild_of_le hs hfit c, responds_answered (exec_fparse_framed hs hwf hfit),
      responds_answered hread, hload, hframe, hflen⟩
  · exact ⟨_, _, _, exec_fload_of_le (f := c :: f) hs (by simp) hfit,
      responds_answered (exec_fread_framed (f := c :: f) hwf hfit hs),
      responds_answered (exec_fparse_framed hs hwf hfit)⟩

end Sys2Proof.Machine
end

section
/-! PROOFS. The statement of 10_state.md on the read sets of the operations (R28). -/

namespace Sys2Proof.Machine

open Sys2Proof.Reading

/-! ### Answers alike in two states under one ST and one CFG -/

/-- Operations that answer alike, and answer, give the same response. -/
theorem AnswersAlike.sameResponse {i : Instr} {s u : State} (h : AnswersAlike s u (exec i s) (exec i u))
    (hanswers : Answers (exec i s)) : sameResponse i s u := by
  obtain ⟨t, ht⟩ := hanswers
  rw [ht] at h
  cases hu : exec i u with
  | next w =>
    rw [hu] at h
    obtain ⟨r, hresp, hresp'⟩ := h
    exact ⟨t, w, r, ht, hu, hresp, hresp'⟩
  | fault f => rw [hu] at h; cases h
  | refused f => rw [hu] at h; cases h

section
variable {s u : State}

/-- A frame is stored in both states or in neither, and the answer does not tell what the buffer held. -/
theorem AnswersAlike.replaceFrame (hmax : u.maxLen = s.maxLen) (f : List Byte) :
    AnswersAlike s u (s.replaceFrame f) (u.replaceFrame f) := by
  by_cases hfit : f.length ≤ s.maxLen
  · rw [State.replaceFrame_eq hfit, State.replaceFrame_eq (hmax ▸ hfit)]
    exact .responded [0x00#8] rfl rfl
  · have hbig := Nat.lt_of_not_le hfit
    rw [State.replaceFrame_fault hbig, State.replaceFrame_fault (hmax ▸ hbig)]
    exact .stopped _

/-- The latch is a bit of ST. -/
theorem State.fatal_eq_of_st_eq (hst : u.st = s.st) : u.fatal = s.fatal :=
  congrArg (BitVec.getLsbD · 7) hst

/-- Under the latch both are refused, so it is enough to compare them without it. -/
theorem AnswersAlike.of_not_fatal {i : Instr} (hi : i ≠ .status) (hfatal : u.fatal = s.fatal)
    (h : s.fatal = false → u.fatal = false → AnswersAlike s u (exec i s) (exec i u)) :
    AnswersAlike s u (exec i s) (exec i u) := by
  cases hs : s.fatal
  · exact h hs (hfatal.trans hs)
  · rw [exec_of_fatal hs hi, exec_of_fatal (hfatal.trans hs) hi]
    exact .respondOnly _ _

/-! ### The operations that do not read the buffer (R28) -/

/-- Without the latch an operation that is no reader looks at its operands and, to test a capacity, at CFG.MAXLEN. -/
theorem exec_nonreader_answersAlike_of_not_fatal {i : Instr} (hi : i.mnemonic ∉ bufferReaders) (hstatus : i ≠ .status)
    (hmax : u.maxLen = s.maxLen) (hs : s.fatal = false) (hu : u.fatal = false) :
    AnswersAlike s u (exec i s) (exec i u) := by
  cases i with
  | bcddec b =>
    rw [execBcddec_of_not_fatal hs, execBcddec_of_not_fatal hu]
    exact .respond _ _
  | bcdenc v =>
    rw [execBcdenc_of_not_fatal hs, execBcdenc_of_not_fatal hu]
    exact .ite (.respond _ _) (.raise _)
  | adrenc t i =>
    rw [execAdrenc_of_not_fatal hs, execAdrenc_of_not_fatal hu]
    exact .ite (.respond _ _) (.raise _)
  | adrdec a =>
    rw [execAdrdec_of_not_fatal hs, execAdrdec_of_not_fatal hu]
    exact .respond _ _
  | cmdenc dp dir opc =>
    rw [execCmdenc_of_not_fatal hs, execCmdenc_of_not_fatal hu]
    exact .ite (.respond _ _) (.raise _)
  | cmddec c =>
    rw [execCmddec_of_not_fatal hs, execCmddec_of_not_fatal hu]
    exact .respond _ _
  | fbuild c p =>
    rw [execFbuild_of_not_fatal hs, execFbuild_of_not_fatal hu, hmax]
    exact .ite (.raise _) (.replaceFrame hmax _)
  | fload f =>
    rw [execFload_of_not_fatal hs, execFload_of_not_fatal hu, hmax]
    exact .ite (.raise _) (.replaceFrame hmax _)
  | fclr =>
    rw [execFclr_of_not_fatal hs, execFclr_of_not_fatal hu]
    exact .replaceFrame hmax _
  | tsenc t =>
    rw [execTsenc_of_not_fatal hs, execTsenc_of_not_fatal hu]
    exact .ite (.respond _ _) (.raise _)
  | tsdec p =>
    rw [execTsdec_of_not_fatal hs, execTsdec_of_not_fatal hu]
    exact .respond _ _
  | v16enc v =>
    rw [execV16enc_of_not_fatal hs, execV16enc_of_not_fatal hu]
    exact .ite (.respond _ _) (.raise _)
  | v16dec p =>
    rw [execV16dec_of_not_fatal hs, execV16dec_of_not_fatal hu]
    exact .respond _ _
  | tsput c t =>
    rw [execTsput_of_not_fatal hs, execTsput_of_not_fatal hu, hmax]
    exact .ite (.raise _) (.ite (.replaceFrame hmax _) (.raise _))
  | v16put c v =>
    rw [execV16put_of_not_fatal hs, execV16put_of_not_fatal hu, hmax]
    exact .ite (.raise _) (.ite (.replaceFrame hmax _) (.raise _))
  | fparse | fread | tsget | v16get => exact absurd (by simp [Instr.mnemonic, bufferReaders]) hi
  | status => exact absurd rfl hstatus

section
variable (hst : u.st = s.st) (hcfg : u.cfgMaxLen = s.cfgMaxLen)
include hst hcfg

/-- No other operation's answer depends on the buffer; STATUS answers ST and CFG themselves. -/
theorem exec_nonreader_answersAlike {i : Instr} (hi : i.mnemonic ∉ bufferReaders) :
    AnswersAlike s u (exec i s) (exec i u) := by
  by_cases hstatus : i = .status
  · subst hstatus
    rw [execStatus_eq, execStatus_eq, State.readSt, State.readSt, hst, hcfg]
    exact .respondOnly _ _
  · exact .of_not_fatal hstatus (State.fatal_eq_of_st_eq hst)
      (exec_nonreader_answersAlike_of_not_fatal hi hstatus (congrArg BitVec.toNat hcfg))

/-! ### The operations that read the buffer (R28) -/

variable (hflen : u.flen = s.flen)
include hflen

/-- TSGET looks at FLEN and at F[1] to F[6]. -/
theorem exec_tsget_answersAlike (hbytes : ∀ k, 1 ≤ k → k ≤ 6 → u.readByte k = s.readByte k) :
    AnswersAlike s u (exec .tsget s) (exec .tsget u) := by
  have hfield : u.frame.readN 1 6 = s.frame.readN 1 6 := Memory.readN_congr fun k h1 h7 => hbytes k h1 (by omega)
  refine .of_not_fatal (by decide) (State.fatal_eq_of_st_eq hst) fun hs hu => ?_
  rw [execTsget_of_not_fatal hs, execTsget_of_not_fatal hu, hflen]
  exact .ite (.raise _) (.withBytes hcfg hfield fun _ => .respond _ _)

/-- V16GET looks at FLEN and at F[1] and F[2]. -/
theorem exec_v16get_answersAlike (hbytes : ∀ k, 1 ≤ k → k ≤ 2 → u.readByte k = s.readByte k) :
    AnswersAlike s u (exec .v16get s) (exec .v16get u) := by
  have hfield : u.frame.readN 1 2 = s.frame.readN 1 2 := Memory.readN_congr fun k h1 h3 => hbytes k h1 (by omega)
  refine .of_not_fatal (by decide) (State.fatal_eq_of_st_eq hst) fun hs hu => ?_
  rw [execV16get_of_not_fatal hs, execV16get_of_not_fatal hu, hflen]
  exact .ite (.raise _) (.withBytes hcfg hfield fun _ => .respond _ _)

end

/-- Under the buffer's invariant the frame is all there is: buffers with the same FLEN that agree below it are the same. -/
theorem State.FrameInv.frame_eq (hs : s.FrameInv) (hu : u.FrameInv) (hflen : u.flen = s.flen)
    (hbytes : ∀ k, k < s.flen.toNat → u.readByte k = s.readByte k) : u.frame = s.frame := by
  obtain ⟨hwf, -, hzero⟩ := hs
  obtain ⟨hwf', -, hzero'⟩ := hu
  refine Memory.eq_of_read_eq hwf' hwf fun k => ?_
  rcases Nat.lt_or_ge k s.flen.toNat with hk | hk
  · exact hbytes k hk
  · exact (hzero' k (hflen ▸ hk)).trans (hzero k hk).symm

end

/-- Settles O21: each operation answers alike in the two states, and under the invariant it answers. -/
theorem operationsReadOnlyTheirReadSet : Obligations.OperationsReadOnlyTheirReadSet := by
  intro s u hs hu hst hcfg
  have ⟨_, hlen, _⟩ := hs
  have hsame {i : Instr} (h : AnswersAlike s u (exec i s) (exec i u)) : sameResponse i s u :=
    h.sameResponse (exec_answers hlen i)
  refine ⟨fun i hi => hsame (exec_nonreader_answersAlike hst.symm hcfg.symm hi), fun hflen hbytes => ?_,
    fun hflen hbytes => ?_, fun hflen hbytes => ?_⟩
  · have hframe := hs.frame_eq hu hflen.symm fun k hk => (hbytes k hk).symm
    have hreader {i : Instr} (hi : i.mnemonic ∈ bufferReaders) : AnswersAlike s u (exec i s) (exec i u) :=
      exec_reader_answersAlike hi hframe hflen.symm hcfg.symm (State.fatal_eq_of_st_eq hst.symm)
    exact ⟨hsame (hreader (by decide)), hsame (hreader (by decide))⟩
  · exact hsame (exec_tsget_answersAlike hst.symm hcfg.symm hflen.symm fun k h1 h6 => (hbytes k h1 h6).symm)
  · exact hsame (exec_v16get_answersAlike hst.symm hcfg.symm hflen.symm fun k h1 h2 => (hbytes k h1 h2).symm)

end Sys2Proof.Machine
end

section
/-! PROOFS. The statements of 44_typed_fields.md: no typed operation looks at the command byte (R88), and TSENC, TSDEC, V16ENC and V16DEC on packets (R89 to R92). -/

namespace Sys2Proof.Machine

open Sys2Proof.Reading

/-! ### Two operations on one state that end alike, F[0] aside (R88) -/

/-- Two operations answer next states that differ in F[0] at most. -/
def EndAlikeExceptFirstByte (r r' : Result) : Prop :=
  ∃ t t', r = .next t ∧ r' = .next t' ∧
    t.responses = t'.responses ∧ t.flen = t'.flen ∧ t.st = t'.st ∧ ∀ k, k ≠ 0 → t.readByte k = t'.readByte k

theorem Answers.endAlikeExceptFirstByte {r : Result} (h : Answers r) : EndAlikeExceptFirstByte r r := by
  obtain ⟨t, ht⟩ := h
  exact ⟨t, t, ht, ht, rfl, rfl, rfl, fun _ _ => rfl⟩

section
variable {s : State}

/-- Frames that share their payload fill the buffer alike from F[1] on. -/
theorem EndAlikeExceptFirstByte.replaceFrame (hwf : s.frame.wf = true) {p : List Byte} (hfit : p.length + 1 ≤ s.maxLen)
    (c c' : Byte) : EndAlikeExceptFirstByte (s.replaceFrame (c :: p)) (s.replaceFrame (c' :: p)) := by
  refine ⟨s.framed (c :: p), s.framed (c' :: p), State.replaceFrame_eq hfit, State.replaceFrame_eq hfit,
    rfl, rfl, rfl, fun k hk => ?_⟩
  obtain ⟨-, hinside, houtside, -⟩ := State.framed_frameStored (f := c :: p) hwf hfit
  obtain ⟨-, hinside', houtside', -⟩ := State.framed_frameStored (f := c' :: p) hwf hfit
  rcases Nat.lt_or_ge k s.maxLen with hlt | hge
  · obtain ⟨j, rfl⟩ := Nat.exists_eq_succ_of_ne_zero hk
    calc (s.framed (c :: p)).readByte (j + 1) = p.getD j 0x00#8 := hinside _ hlt
      _ = (s.framed (c' :: p)).readByte (j + 1) := (hinside' _ hlt).symm
  · exact (houtside k hge).trans (houtside' k hge).symm

/-- Under the latch both operations are refused in the same way. -/
theorem EndAlikeExceptFirstByte.of_not_fatal {i i' : Instr} (hi : i ≠ .status) (hi' : i' ≠ .status)
    (h : s.fatal = false → EndAlikeExceptFirstByte (exec i s) (exec i' s)) :
    EndAlikeExceptFirstByte (exec i s) (exec i' s) := by
  cases hs : s.fatal
  · exact h hs
  · rw [exec_of_fatal hs hi, exec_of_fatal hs hi']
    exact (Answers.respondOnly s _ _).endAlikeExceptFirstByte

variable (hwf : s.frame.wf = true) (c c' : Byte)
include hwf

/-- A frame stored after a test of the capacity and one of its fields: the failures do not tell the first byte either. -/
theorem EndAlikeExceptFirstByte.testedFrame {n : Nat} {ok : Prop} [Decidable ok] {p : List Byte} (hp : p.length = n)
    (e e' : Status) :
    EndAlikeExceptFirstByte
      (if n + 1 > s.maxLen then s.raise e else if ok then s.replaceFrame (c :: p) else s.raise e')
      (if n + 1 > s.maxLen then s.raise e else if ok then s.replaceFrame (c' :: p) else s.raise e') := by
  by_cases hbig : n + 1 > s.maxLen
  · rw [if_pos hbig, if_pos hbig]
    exact (Answers.raise s e).endAlikeExceptFirstByte
  rw [if_neg hbig, if_neg hbig]
  by_cases hok : ok
  · rw [if_pos hok, if_pos hok]
    exact .replaceFrame hwf (hp ▸ Nat.not_lt.mp hbig) c c'
  · rw [if_neg hok, if_neg hok]
    exact (Answers.raise s e').endAlikeExceptFirstByte

theorem exec_tsput_endAlike (ts : Timestamp) :
    EndAlikeExceptFirstByte (exec (.tsput c ts) s) (exec (.tsput c' ts) s) := by
  refine .of_not_fatal (by simp) (by simp) fun hs => ?_
  rw [execTsput_of_not_fatal hs, execTsput_of_not_fatal hs]
  exact .testedFrame hwf c c' (p := (tsEnc ts).bytes) rfl _ _

theorem exec_v16put_endAlike (v : Half) :
    EndAlikeExceptFirstByte (exec (.v16put c v) s) (exec (.v16put c' v) s) := by
  refine .of_not_fatal (by simp) (by simp) fun hs => ?_
  rw [execV16put_of_not_fatal hs, execV16put_of_not_fatal hs]
  exact .testedFrame hwf c c' (p := (v16Enc v).bytes) rfl _ _

end

/-- Settles O24: the two readers look at F[1] and up, and the two writers put the command byte into F[0] untested. -/
theorem typedOperationsIgnoreTheCommandByte : Obligations.TypedOperationsIgnoreTheCommandByte := by
  refine ⟨fun s u ⟨_, hlen, _⟩ _ hst hcfg hflen hbytes => ?_, fun s c c' ⟨hwf, _, _⟩ =>
    ⟨exec_tsput_endAlike hwf c c', exec_v16put_endAlike hwf c c'⟩⟩
  have hbyte {k : Nat} (hk : 1 ≤ k) : u.readByte k = s.readByte k := (hbytes k (Nat.ne_of_gt hk)).symm
  have hts := exec_tsget_answersAlike hst.symm hcfg.symm hflen.symm fun k h1 _ => hbyte h1
  have hv16 := exec_v16get_answersAlike hst.symm hcfg.symm hflen.symm fun k h1 _ => hbyte h1
  exact ⟨hts.sameResponse (exec_answers hlen _), hv16.sameResponse (exec_answers hlen _)⟩

/-! ### TSENC and V16ENC (R89, R91) -/

section
variable {s : State} (hs : unlatched s)
include hs

theorem exec_tsenc_of_encodable {t : Timestamp} (hok : encodable t) :
    exec (.tsenc t) s = .next (answered s 0x00#8 (timestampBytes t)) := by
  rw [execTsenc_of_not_fatal hs, if_pos ((timestampOk_iff t).mpr hok), tsEnc_bytes]
  rfl

theorem exec_tsenc_of_not_encodable {t : Timestamp} (hbad : ¬ encodable t) :
    exec (.tsenc t) s = .next (answered s 0x05#8 []) := by
  rw [execTsenc_of_not_fatal hs, if_neg (mt (timestampOk_iff t).mp hbad)]
  exact s.raise_eq_answered (by decide)

theorem exec_v16enc_of_le {v : Half} (hok : v.toNat ≤ 9999) :
    exec (.v16enc v) s = .next (answered s 0x00#8 (valueBytes v)) := by
  rw [execV16enc_of_not_fatal hs, if_pos ((decimal16Ok_iff v).mpr hok), v16Enc_bytes]
  rfl

theorem exec_v16enc_of_gt {v : Half} (hbig : 9999 < v.toNat) :
    exec (.v16enc v) s = .next (answered s 0x05#8 []) := by
  rw [execV16enc_of_not_fatal hs, if_neg (mt (decimal16Ok_iff v).mp (Nat.not_le.mpr hbig))]
  exact s.raise_eq_answered (by decide)

end

/-- Settles O47: the year is the packet's first two operand bytes, and one test of the five fields splits the answers. -/
theorem tsencAnswersSixBcdBytes : Obligations.TsencAnswersSixBcdBytes :=
  ⟨fun yH yL mo d h mi => ⟨⟨u16 yH yL, mo, d, h, mi⟩, rfl, u16_toNat yH yL, rfl, rfl, rfl, rfl⟩,
    fun _ _ hs => ⟨exec_tsenc_of_encodable hs, exec_tsenc_of_not_encodable hs⟩,
    fun _ => haltedWhenLatched_of_ne_status (by simp),
    onlyWithOperands_of_fixed (m := .tsenc) (by decide) fun _ => rfl⟩

/-- Settles O49: the range test is the one of the spec, and 10000 is the first value refused. -/
theorem v16encAnswersTwoBcdBytes : Obligations.V16encAnswersTwoBcdBytes :=
  ⟨fun vH vL => ⟨u16 vH vL, rfl, u16_toNat vH vL⟩,
    fun _ _ hs => ⟨exec_v16enc_of_le hs, exec_v16enc_of_gt hs⟩,
    fun _ => haltedWhenLatched_of_ne_status (by simp),
    onlyWithOperands_of_fixed (m := .v16enc) (by decide) fun _ => rfl⟩

/-! ### TSDEC and V16DEC (R90, R92) -/

/-- Settles O48: the operand bytes are the payload, answered as TSGET answers the frame's. -/
theorem tsdecAnswersTheTimestamp : Obligations.TsdecAnswersTheTimestamp := by
  refine ⟨fun p0 p1 p2 p3 p4 p5 => decode_encode (i := .tsdec ⟨p0, p1, p2, p3, p4, p5⟩) rfl, fun s p hs => ?_,
    fun _ => haltedWhenLatched_of_ne_status (by simp),
    onlyWithOperands_of_fixed (m := .tsdec) (by decide) fun _ => rfl⟩
  rw [execTsdec_of_not_fatal hs]
  exact s.respondTimestamp_eq p

/-- Settles O50: likewise, as V16GET answers the frame's value. -/
theorem v16decAnswersTheValue : Obligations.V16decAnswersTheValue := by
  refine ⟨fun p0 p1 => decode_encode (i := .v16dec ⟨p0, p1⟩) rfl, fun s p hs => ?_,
    fun _ => haltedWhenLatched_of_ne_status (by simp),
    onlyWithOperands_of_fixed (m := .v16dec) (by decide) fun _ => rfl⟩
  rw [execV16dec_of_not_fatal hs]
  exact s.respondValue_eq p

end Sys2Proof.Machine
end

section
/-! PROOFS. The statement of 45_system.md: STATUS reads ST and CFG.MAXLEN, also under the latch, and writes nothing (R98). -/

namespace Sys2Proof.Machine

open Sys2Proof.Reading

/-- STATUS takes no operand byte: a packet with OPSEL 0xF0 and more bytes is of a wrong length (30_encoding.md R57). -/
theorem decode_status_eq_wrongLength {args : List Byte} (hargs : args ≠ []) :
    decode (0xF0#8 :: args) = .error .wrongLength := by
  have hlen : args.length + 1 ≠ 1 := fun h => hargs (List.eq_nil_of_length_eq_zero (Nat.succ.inj h))
  exact (decode_eq_wrongLength_iff_of_fixed (m := .status) (fun _ => rfl) args).mpr hlen

/-- The meaning of STATUS has no test of the latch, so one equation holds in every state (R98). -/
theorem exec_status (s : State) :
    exec .status s = .next (answeredOnly s 0x00#8 [s.st &&& 0x87#8, s.cfgMaxLen]) :=
  (execStatus_eq s).trans (s.respondOnly_eq .ok [s.readSt, s.cfgMaxLen])

/-- Settles O55: STATUS only responds, and a longer packet is refused for its length, with nothing written. -/
theorem statusAnswersStAndConfiguration : Obligations.StatusAnswersStAndConfiguration :=
  ⟨decode_encode (i := .status) rfl, exec_status,
    fun _ _ _ hp hargs => step_illegal_status hp (decode_status_eq_wrongLength hargs) rfl⟩

end Sys2Proof.Machine
end

section
/-! PROOFS. The statements of 60_exceptions.md: how a request ends, what that writes in ST (R107, R112), what a failure leaves alone (R111), and the values ST can reach (R113). -/

namespace Sys2Proof.Machine

open Sys2Proof.Reading

/-! ### Everything a request can end with (R111, R112) -/

/-- How a request of at least one byte ends, by its OPSEL: the status and the results of its response, and the state it leaves. With OPSEL 0xF0 nothing is written; else the latch refuses, or one of the three endings of an operation or of a refused packet follows. -/
inductive RequestEnding (op : Byte) (s t : State) : Status → List Byte → Prop where
  | statusRead (hop : op = 0xF0#8) (rs : List Byte) (ht : t = s.emit (Status.code .ok :: rs)) :
      RequestEnding op s t .ok rs
  | statusIllFormed (hop : op = 0xF0#8) (ht : t = s.emit [Status.code .illegalRequest]) :
      RequestEnding op s t .illegalRequest []
  | halted (hop : op ≠ 0xF0#8) (hf : s.fatal = true) (ht : t = s.emit [Status.code .halted]) :
      RequestEnding op s t .halted []
  | responded (hop : op ≠ 0xF0#8) (hf : s.fatal = false) (e : Status) (rs : List Byte)
      (he : e ≠ .configurationError ∧ e ≠ .halted) (hrs : e = .malformedBcd → rs ≠ [])
      (hnil : e ≠ .ok → e ≠ .malformedBcd → rs = []) (ht : t = (s.setErr e).emit (e.code :: rs)) :
      RequestEnding op s t e rs
  | constantRefused (hop : op ≠ 0xF0#8) (hf : s.fatal = false)
      (ht : t = (s.setFatal.setErr .configurationError).emit [Status.code .configurationError]) :
      RequestEnding op s t .configurationError []
  | stored (hop : op ≠ 0xF0#8) (hf : s.fatal = false) (f : List Byte) (ht : t = s.framed f) :
      RequestEnding op s t .ok []

/-- STATUS is the only operation with OPSEL 0xF0 (30_encoding.md R54). -/
theorem Instr.eq_status_of_opsel {i : Instr} (h : i.mnemonic.opsel = 0xF0#8) : i = .status := by
  have hm : some i.mnemonic = some .status :=
    (mnemonicOf_opsel i.mnemonic).symm.trans ((congrArg mnemonicOf h).trans (mnemonicOf_opsel .status))
  cases i with
  | status => rfl
  | _ => cases hm

/-- A packet that decodes ends as its operation does. -/
theorem exec_requestEnding {op : Byte} {args : List Byte} {i : Instr} {s t : State}
    (hd : decode (op :: args) = .ok i) (h : exec i s = .next t) : ∃ e rs, RequestEnding op s t e rs := by
  have hopsel : i.mnemonic.opsel = op := opsel_of_decode hd
  have hop (hi : i ≠ .status) : op ≠ 0xF0#8 := fun hop => hi (Instr.eq_status_of_opsel (hopsel.trans hop))
  obtain ⟨rfl, ht⟩ | ⟨hi, hf, ht⟩ | ⟨hi, hf, heff⟩ := exec_next_cases h
  · exact ⟨_, _, .statusRead hopsel.symm _ ht⟩
  · exact ⟨_, _, .halted (hop hi) hf ht⟩
  · cases heff with
    | responded e rs he hrs hnil ht =>
      obtain ⟨hconf, -, hhalt⟩ := he
      exact ⟨_, _, .responded (hop hi) hf e rs ⟨hconf, hhalt⟩ hrs hnil ht⟩
    | constantRefused _ ht => exact ⟨_, _, .constantRefused (hop hi) hf ht⟩
    | stored _ f _ ht => exact ⟨_, _, .stored (hop hi) hf f ht⟩

/-- A refused packet ends with IllegalRequest or Halted. -/
theorem rejectRequest_requestEnding {op : Byte} {args : List Byte} {s t : State}
    (h : s.rejectRequest (op :: args) = .next t) : ∃ e rs, RequestEnding op s t e rs := by
  have hhead : (op :: args).head? = some Mnemonic.status.opsel ↔ op = 0xF0#8 := Option.some_inj
  obtain ⟨hop, ht⟩ | ⟨hop, hf, ht⟩ | ⟨hop, hf, ht⟩ := rejectRequest_next_cases h
  · exact ⟨_, _, .statusIllFormed (hhead.mp hop) ht⟩
  · exact ⟨_, _, .halted (mt hhead.mpr hop) hf ht⟩
  · exact ⟨_, _, .responded (mt hhead.mpr hop) hf .illegalRequest [] (by decide) (by decide) (fun _ _ => rfl) ht⟩

/-- Every request of at least one byte has an ending. -/
theorem step_requestEnding {s t : State} {op : Byte} {args : List Byte} {rest : List HostEvent}
    (hp : s.pending = .request (op :: args) :: rest) (h : step s = .next t) :
    ∃ e rs, RequestEnding op { s with pending := rest } t e rs := by
  have hserve : serveRequest (op :: args) { s with pending := rest } = .next t := (step_event hp).symm.trans h
  obtain ⟨hd, -⟩ | ⟨i, hd, he⟩ | ⟨_, -, -, he⟩ := serveRequest_cases (op :: args) { s with pending := rest }
  · cases (decode_eq_emptyPacket_iff _).mp hd
  · exact exec_requestEnding hd (he.symm.trans hserve)
  · exact rejectRequest_requestEnding (he.symm.trans hserve)

/-! ### What an ending tells -/

section
variable {op : Byte} {s t : State} {e : Status} {rs : List Byte} (h : RequestEnding op s t e rs)
include h

/-- The one response is the status byte and the results (30_encoding.md R51). -/
theorem RequestEnding.responses_eq : t.responses = s.responses ++ [e.code :: rs] := by
  cases h <;> next ht => subst ht; rfl

/-- Halted is the answer of the latch to every OPSEL but 0xF0 (R107). -/
theorem RequestEnding.halted_iff : e = .halted ↔ latched s ∧ op ≠ 0xF0#8 := by
  have hclear (hf : s.fatal = false) : ¬ (latched s ∧ op ≠ 0xF0#8) :=
    fun ⟨hs, _⟩ => Bool.false_ne_true (hf.symm.trans hs)
  cases h with
  | statusRead hop => simp [hop]
  | statusIllFormed hop => simp [hop]
  | halted hop hf => exact iff_of_true rfl ⟨hf, hop⟩
  | responded _ hf _ _ he =>
    obtain ⟨-, hhalt⟩ := he
    exact iff_of_false hhalt (hclear hf)
  | constantRefused _ hf => exact iff_of_false nofun (hclear hf)
  | stored _ hf => exact iff_of_false nofun (hclear hf)

/-- The complete list of the writes of ST (R112), by the status. -/
theorem RequestEnding.st_eq :
    t.st =
      if e.code = 0x07#8 ∨ op = 0xF0#8 then s.st
      else if e.code = 0x01#8 then (s.st &&& 0xF8#8) ||| 0x81#8
      else (s.st &&& 0xF8#8) ||| e.code := by
  cases h with
  | statusRead hop _ ht => subst ht; exact (if_pos (.inr hop)).symm
  | statusIllFormed hop ht => subst ht; exact (if_pos (.inr hop)).symm
  | halted _ _ ht => subst ht; exact (if_pos (.inl rfl)).symm
  | responded hop _ e _ he _ _ ht =>
    obtain ⟨hconf, hhalt⟩ := he
    have hne7 : ¬ (e.code = 0x07#8 ∨ op = 0xF0#8) := not_or.mpr ⟨fun hc => hhalt (Status.code_injective hc), hop⟩
    have hne1 : e.code ≠ 0x01#8 := fun hc => hconf (Status.code_injective hc)
    rw [if_neg hne7, if_neg hne1, ht, State.emit_st, State.setErr_st]
  | constantRefused hop _ ht =>
    have hne7 : ¬ (Status.code .configurationError = 0x07#8 ∨ op = 0xF0#8) := not_or.mpr ⟨by decide, hop⟩
    rw [if_neg hne7, if_pos (show Status.code .configurationError = 0x01#8 from rfl), ht, State.emit_st, State.setErr_st,
      State.setFatal_st, BitVec.and_or_distrib_right, BitVec.or_assoc]
    rfl
  | stored hop _ f ht =>
    have hne7 : ¬ (Status.code .ok = 0x07#8 ∨ op = 0xF0#8) := not_or.mpr ⟨by decide, hop⟩
    rw [if_neg hne7, if_neg (by decide), ht, State.framed_st, State.setErr_st]

/-- Only success writes the buffer (R111 (1)). -/
theorem RequestEnding.keeps_buffer (he : e ≠ .ok) : t.frame = s.frame ∧ t.flen = s.flen := by
  cases h with
  | statusRead => exact absurd rfl he
  | statusIllFormed _ ht => subst ht; exact ⟨rfl, rfl⟩
  | halted _ _ ht => subst ht; exact ⟨rfl, rfl⟩
  | responded _ _ _ _ _ _ _ ht => subst ht; exact ⟨rfl, rfl⟩
  | constantRefused _ _ ht => subst ht; exact ⟨rfl, rfl⟩
  | stored => exact absurd rfl he

/-- Only OK and MalformedBcd have results (R111 (3)). -/
theorem RequestEnding.results_eq_nil (hok : e ≠ .ok) (hbcd : e ≠ .malformedBcd) : rs = [] := by
  cases h with
  | statusRead => exact absurd rfl hok
  | responded _ _ _ _ _ _ hnil => exact hnil hok hbcd
  | _ => rfl

/-- MalformedBcd delivers its results (R103). -/
theorem RequestEnding.results_ne_nil (hbcd : e = .malformedBcd) : rs ≠ [] := by
  cases h with
  | responded _ _ _ _ _ hrs => exact hrs hbcd
  | _ => cases hbcd

/-- Only ConfigurationError sets the latch (R112 (d)). -/
theorem RequestEnding.fatal_eq (he : e ≠ .configurationError) : t.fatal = s.fatal := by
  cases h with
  | statusRead _ _ ht => subst ht; rfl
  | statusIllFormed _ ht => subst ht; rfl
  | halted _ _ ht => subst ht; rfl
  | responded _ _ e _ _ _ _ ht => subst ht; exact s.setErr_fatal e
  | constantRefused => exact absurd rfl he
  | stored _ _ f ht => subst ht; exact s.framed_fatal f

end

/-! ### The writes of ST (R107, R112) -/

/-- Settles O18: the ending of the request gives the code and the write of ST, and without an event, or with the empty packet, the step writes nothing. -/
theorem statusRegisterWritesAreComplete : Obligations.StatusRegisterWritesAreComplete := by
  refine ⟨fun s t op args rest hp hstep => ?_, fun s t hstep hst => ?_⟩
  · obtain ⟨e, rs, h⟩ := step_requestEnding hp hstep
    exact ⟨e.code, rs, h.responses_eq, (Status.code_injective.eq_iff (b := .halted)).trans h.halted_iff, h.st_eq⟩
  · obtain ⟨hidle, hempty⟩ := emptyPacketAndNoPacketDoNothing
    cases hp : s.pending with
    | nil =>
      cases (hidle s hp).symm.trans hstep
      exact absurd rfl hst
    | cons e rest =>
      refine ⟨e, rest, rfl, ?_⟩
      rintro rfl
      cases (hempty s rest hp).symm.trans hstep
      exact hst rfl

/-- A step that changes ST serves a reset or a request of at least one byte. -/
theorem event_of_st_changed {s t : State} (hstep : step s = .next t) (hst : t.st ≠ s.st) :
    (∃ packet rest, s.pending = .reset :: rest ∨ s.pending = .resetDuring packet :: rest) ∨
    ∃ op args rest, s.pending = .request (op :: args) :: rest := by
  obtain ⟨-, hevent⟩ := statusRegisterWritesAreComplete
  obtain ⟨e, rest, hp, hne⟩ := hevent s t hstep hst
  cases e with
  | reset => exact .inl ⟨[], rest, .inl hp⟩
  | resetDuring packet => exact .inl ⟨packet, rest, .inr hp⟩
  | request packet =>
    cases packet with
    | nil => exact absurd rfl hne
    | cons op args => exact .inr ⟨op, args, rest, hp⟩

/-- A reset leaves ST = 0 (70_reset_and_hazards.md R124). -/
theorem st_of_step_reset {s t : State} {packet : List Byte} {rest : List HostEvent}
    (hp : s.pending = .reset :: rest ∨ s.pending = .resetDuring packet :: rest) (hstep : step s = .next t) :
    t.st = 0x00#8 := by
  obtain hp | hp := hp <;> cases (step_event hp).symm.trans hstep <;> rfl

/-- A write that keeps the upper bits of ST stores the code's own low bits in ST.ERR. -/
theorem writtenErr (st code : Byte) : ((st &&& 0xF8#8) ||| code) &&& 0x07#8 = code &&& 0x07#8 := by
  have hdisjoint : (0xF8#8 &&& 0x07#8 : Byte) = 0#8 := rfl
  rw [BitVec.and_or_distrib_right, BitVec.and_assoc, hdisjoint, BitVec.and_zero, BitVec.zero_or]

/-- A status code is its own low three bits. -/
theorem Status.code_and_seven (e : Status) : e.code &&& 0x07#8 = e.code := by
  cases e <;> rfl

/-- A request that changes ST leaves a code other than 7 in ST.ERR (R107). -/
theorem RequestEnding.err_ne_seven {op : Byte} {s t : State} {e : Status} {rs : List Byte}
    (h : RequestEnding op s t e rs) (hst : t.st ≠ s.st) : t.st &&& 0x07#8 ≠ 0x07#8 := by
  have hwrite := h.st_eq
  split at hwrite
  · exact absurd hwrite hst
  · next hcode =>
    split at hwrite
    · rw [hwrite, writtenErr]; decide
    · rw [hwrite, writtenErr, Status.code_and_seven]
      exact (not_or.mp hcode).1

/-- Settles O17: the test of the latch comes first, and a step that changes ST never stores 7. -/
theorem haltedRefusesEveryOtherRequest : Obligations.HaltedRefusesEveryOtherRequest := by
  refine ⟨fun s op args rest hp hs hop => ?_, fun s t hstep herr => ?_⟩
  · exact (requestsAreServedInTheDecodingOrder s op args rest hp).trans (if_pos ⟨hs, hop⟩)
  · by_cases hst : t.st = s.st
    · exact hst ▸ herr
    · obtain ⟨packet, rest, hp⟩ | ⟨op, args, rest, hp⟩ := event_of_st_changed hstep hst
      · rw [st_of_step_reset hp hstep] at herr
        exact absurd herr (by decide)
      · obtain ⟨e, rs, h⟩ := step_requestEnding hp hstep
        exact absurd herr (h.err_ne_seven hst)

/-! ### Failures (R111) -/

/-- Settles O19: the response names the ending, and every ending but OK leaves the buffer. -/
theorem failedOperationsWriteOnlyStatus : Obligations.FailedOperationsWriteOnlyStatus := by
  intro s t op args rest code results hp hstep hresp hcode
  obtain ⟨e, rs, h⟩ := step_requestEnding hp hstep
  have hresponse : e.code :: rs = code :: results :=
    List.singleton_inj.mp (List.append_cancel_left (h.responses_eq.symm.trans hresp))
  obtain ⟨rfl, rfl⟩ := List.cons.inj hresponse
  have hcode_iff (e' : Status) : e.code = e'.code ↔ e = e' := Status.code_injective.eq_iff
  have hok : e ≠ .ok := mt (hcode_iff .ok).mpr hcode
  obtain ⟨hframe, hflen⟩ := h.keeps_buffer hok
  obtain ⟨-, hcfg⟩ := step_bufferChange hstep
  obtain ⟨hrest, -⟩ := step_addsResponses hp hstep
  exact ⟨hframe, hflen, hcfg, hrest,
    fun hc => h.results_eq_nil hok (mt (hcode_iff .malformedBcd).mpr hc),
    fun hc => h.results_ne_nil ((hcode_iff .malformedBcd).mp hc),
    fun hc => h.fatal_eq (mt (hcode_iff .configurationError).mpr hc), h.st_eq⟩

/-! ### The reachable values of ST (R113) -/

/-- Under the latch a request leaves ST as it is (R107, R112 (a), (b)). -/
theorem RequestEnding.st_eq_of_latched {op : Byte} {s t : State} {e : Status} {rs : List Byte}
    (h : RequestEnding op s t e rs) (hs : latched s) : t.st = s.st := by
  refine h.st_eq.trans (if_pos ?_)
  by_cases hop : op = 0xF0#8
  · exact .inr hop
  · exact .inl (congrArg Status.code (h.halted_iff.mpr ⟨hs, hop⟩))

/-- Each value is reached from reset: by no event, then one failing request for each status in the order of the codes, the ConfigurationError last. -/
theorem reachableSt_reached :
    ∀ v ∈ reachableSt, ∃ (events : List HostEvent) (t : State), runEvents State.reset events = .next t ∧ t.st = v := by
  simp only [reachableSt, List.forall_mem_cons]
  exact ⟨⟨[], _, rfl, rfl⟩,
    ⟨[.request (encode (.fbuild 0x00#8 (List.replicate 10 0x00#8)))], _, rfl, rfl⟩,
    ⟨[.request (encode (.bcddec 0x3C#8))], _, rfl, rfl⟩,
    ⟨[.request (encode .fparse)], _, rfl, rfl⟩,
    ⟨[.request (encode (.bcdenc 100#8))], _, rfl, rfl⟩,
    ⟨[.request [0x02#8]], _, rfl, rfl⟩,
    ⟨[.request (encode (.adrenc 16#8 0#8))], _, rfl, rfl⟩, by simp⟩

/-- Settles O5: the invariant of the step, a run to each value, and under the latch the endings that write nothing. -/
theorem statusKeepsToTheReachableValues : Obligations.StatusKeepsToTheReachableValues := by
  refine ⟨State.reset_statusInv, fun _ _ => step_statusInv, reachableSt_reached, fun s t hs hstep => ?_⟩
  by_cases hst : t.st = s.st
  · exact .inl hst
  · obtain hreset | ⟨op, args, rest, hp⟩ := event_of_st_changed hstep hst
    · exact .inr hreset
    · obtain ⟨e, rs, h⟩ := step_requestEnding hp hstep
      exact .inl (h.st_eq_of_latched hs)

end Sys2Proof.Machine
end

section
/-! PROOFS. The statement of 70_reset_and_hazards.md: reset is taken in every state, and nothing else clears ST.FATAL (R123). -/

namespace Sys2Proof.Machine

open Sys2Proof.Reading

/-- Both forms of reset are served alike: `applyReset` after the event is consumed, the abandoned packet unread (R123). -/
theorem step_reset {s : State} {packet : List Byte} {rest : List HostEvent}
    (hp : s.pending = .reset :: rest ∨ s.pending = .resetDuring packet :: rest) :
    step s = .next ({ s with pending := rest } : State).applyReset := by
  obtain hp | hp := hp <;> exact step_event hp

/-- Settles O2: a reset step is `applyReset`; and a step that clears the latch changes ST, which under the latch only a reset does (R113). -/
theorem onlyResetClearsTheFatalLatch : Obligations.OnlyResetClearsTheFatalLatch := by
  refine ⟨fun s packet rest hp => step_reset hp, fun s t hs hstep ht => ?_⟩
  obtain ⟨-, -, -, hlatched⟩ := statusKeepsToTheReachableValues
  obtain hst | hreset := hlatched s t hs hstep
  · have ht' : latched t := (congrArg (BitVec.getLsbD · 7) hst).trans hs
    exact absurd (ht'.symm.trans ht) (by decide)
  · exact hreset

end Sys2Proof.Machine
end
